-- ==== Sys2Proof/Word.lean ====
section
/-! DEFINITION. The one word size of the engine. -/

namespace Sys2Proof

/-- A memory cell, a register, the flags register or an operand byte (R6 `WIDTH`, R20, R33, R37): 8 bits, always
read as an unsigned value (R7, R21). -/
abbrev Byte := BitVec 8

end Sys2Proof
end

