-- ==== Sys2Proof/Machine/Flags.lean ====
section
/-! DEFINITION. The flags register's fields and the one computation that writes them (R33, R132). -/

namespace Sys2Proof.Machine

/-- FL bit 0, E: the last COMPARE found equal (R33). -/
def flagE (fl : Byte) : Bool := fl.getLsbD 0

/-- FL bit 1, G: the last COMPARE found greater (R33). -/
def flagG (fl : Byte) : Bool := fl.getLsbD 1

/-- FL bit 2, L: the last COMPARE found less (R33). -/
def flagL (fl : Byte) : Bool := fl.getLsbD 2

/-- FL after COMPARE of `a` with `b`: bits 2:0 cleared, then one of them set; the order is unsigned (R132). Bits 7:3
are not written. -/
def compareFlags (fl a b : Byte) : Byte :=
  (fl &&& 0xF8) ||| (if a < b then 0x04 else if a > b then 0x02 else 0x01)

end Sys2Proof.Machine
end

