-- ==== Sys2Proof/Config.lean ====
section
/-! DEFINITION. The implementation parameters of R6. Four more parameters of that table stand in files that a repair
may mend: `dispatchKey` and `setsPcBit` in Decode.lean, `spEdge` and `callRetOffset` in Machine/Ops.lean. -/

namespace Sys2Proof.Config

/-- `MEM_SIZE` (R6, R37; fixed at 256 by the spec's decision D19). -/
abbrev memSize : Nat := 256

/-- `NREG` (R6, R20). -/
abbrev nReg : Nat := 8

/-- `WIDTH` (R6): the width of `Byte`. -/
abbrev width : Nat := 8

/-- `SP_REG` (R6, R22): register 7 is the stack pointer. -/
abbrev spReg : Fin 8 := 7

/-- `EM_REG` (R6, R23): register 4 is the end marker. -/
abbrev emReg : Fin 8 := 4

/-- `SP_TOP` (R6, R26): the reset value of SP and POP's upper guard. -/
abbrev spTop : Byte := 0xF4

/-- `FETCH_BYTES` (R6, R101). -/
abbrev fetchBytes : Nat := 3

/-- The values of the parameter `DISPATCH_KEY` (R6, R79, decision D22). -/
inductive DispatchKey where
  /-- dispatch on bits 5:0 of the opcode byte -/
  | low6
  /-- dispatch on the whole opcode byte: only the canonical bytes are present -/
  | full8
  deriving DecidableEq, Repr

/-- The values of the parameter `SP_EDGE` (R6, R152, R153, decision D7). -/
inductive SpEdge where
  /-- SP wraps modulo 256 -/
  | wrap
  /-- the model gives the two edge cases no meaning -/
  | refuse
  deriving DecidableEq, Repr

/-- The parameters `EXIT_CODE_*` (R168, decision D13: OPEN, "a named parameter the model takes as an argument"):
pairwise distinct and non-zero, and nothing else is known of them. -/
structure ExitCodes where
  addressFault : Nat
  unknownInstruction : Nat
  stackOverflow : Nat
  registerIndex : Nat
  nonzero : 0 ∉ [addressFault, unknownInstruction, stackOverflow, registerIndex]
  distinct : [addressFault, unknownInstruction, stackOverflow, registerIndex].Nodup

end Sys2Proof.Config
end

