-- ==== Sys2Proof/Syntax.lean ====
section
/-! DEFINITION. The eleven instructions of opcode_table.json (R2, R77). -/

namespace Sys2Proof

/-- An instruction as the engine dispatches it. `aa` is the opcode byte's AA field (bits 7:6, R71): it does not select
the handler (R79) but decides the advance (R104). `a` and `b` are the operand bytes opA and opB, taken whole (R74);
an operand byte that R76 marks "fetched and ignored" is no part of the instruction. -/
inductive Instr where
  /-- LOAD-IMMEDIATE (R120): register `a` gets the immediate `imm`. -/
  | ldi (aa : BitVec 2) (a imm : Byte)
  /-- PRINT (R121): register `a` goes to the output port. -/
  | prn (aa : BitVec 2) (a : Byte)
  /-- HALT (R150). -/
  | hlt (aa : BitVec 2)
  /-- MULTIPLY (R131): register `a` gets the product of registers `a` and `b`. -/
  | mul (aa : BitVec 2) (a b : Byte)
  /-- ADD (R130): register `a` gets the sum of registers `a` and `b`. -/
  | add (aa : BitVec 2) (a b : Byte)
  /-- COMPARE (R132): FL gets the order of registers `a` and `b`. -/
  | cmp (aa : BitVec 2) (a b : Byte)
  /-- PUSH (R140): register `a` goes on the stack. -/
  | push (aa : BitVec 2) (a : Byte)
  /-- POP (R141): register `a` comes from the stack. -/
  | pop (aa : BitVec 2) (a : Byte)
  /-- CALL (R152): to the address in register `a`. -/
  | call (aa : BitVec 2) (a : Byte)
  /-- RETURN (R153). -/
  | ret (aa : BitVec 2)
  /-- STORE (R122): register `a` goes to memory at the address in register `b`. -/
  | st (aa : BitVec 2) (a b : Byte)
  deriving DecidableEq, Repr

namespace Instr

/-- The AA field of the instruction's opcode byte (R71). -/
def aa : Instr → BitVec 2
  | ldi aa _ _ => aa
  | prn aa _ => aa
  | hlt aa => aa
  | mul aa _ _ => aa
  | add aa _ _ => aa
  | cmp aa _ _ => aa
  | push aa _ => aa
  | pop aa _ => aa
  | call aa _ => aa
  | ret aa => aa
  | st aa _ _ => aa

/-- The same operation and operands under another AA field: an alias encoding of it (R79). -/
def withAA (n : BitVec 2) : Instr → Instr
  | ldi _ a imm => ldi n a imm
  | prn _ a => prn n a
  | hlt _ => hlt n
  | mul _ a b => mul n a b
  | add _ a b => add n a b
  | cmp _ a b => cmp n a b
  | push _ a => push n a
  | pop _ a => pop n a
  | call _ a => call n a
  | ret _ => ret n
  | st _ a b => st n a b

/-- The operand bytes that the instruction uses as register indices, in the order R74 and R166 check them (R76). -/
def regOperands : Instr → List Byte
  | ldi _ a _ => [a]
  | prn _ a => [a]
  | hlt _ => []
  | mul _ a b => [a, b]
  | add _ a b => [a, b]
  | cmp _ a b => [a, b]
  | push _ a => [a]
  | pop _ a => [a]
  | call _ a => [a]
  | ret _ => []
  | st _ a b => [a, b]

/-- How many operand bytes the instruction uses: its format F0, F1 or F2 (R70). -/
def operandCount : Instr → Nat
  | ldi _ _ _ => 2
  | prn _ _ => 1
  | hlt _ => 0
  | mul _ _ _ => 2
  | add _ _ _ => 2
  | cmp _ _ _ => 2
  | push _ _ => 1
  | pop _ _ => 1
  | call _ _ => 1
  | ret _ => 0
  | st _ _ _ => 2

/-- Whether the instruction sets `pc` itself: exactly CALL and RETURN (R28, R71, R105). -/
def setsPc : Instr → Bool
  | ldi _ _ _ => false
  | prn _ _ => false
  | hlt _ => false
  | mul _ _ _ => false
  | add _ _ _ => false
  | cmp _ _ _ => false
  | push _ _ => false
  | pop _ _ => false
  | call _ _ => true
  | ret _ => true
  | st _ _ _ => false

end Instr

end Sys2Proof
end

