-- ==== Sys2Proof/WellFormed.lean ====
section
/-! DEFINITION. What makes an instruction well formed (R74) and canonical (R77). An instruction that is not well
formed still decodes and runs: it raises RegisterIndexFault (R164). -/

namespace Sys2Proof.Instr

/-- Every operand byte in a register position is a legal register index 0..7 (R74). -/
def wellFormed (i : Instr) : Bool :=
  i.regOperands.all (fun r => r.toNat < Config.nReg)

/-- The AA field is the canonical one, the operand count of the instruction's format (R70, R77). -/
def canonical (i : Instr) : Bool :=
  i.aa.toNat == i.operandCount

/-- The encodings of `i` that dispatch under a value of `DISPATCH_KEY` (R79): all of them under `low6`, only the
canonical one under `full8`. -/
def dispatches (k : Config.DispatchKey) (i : Instr) : Bool :=
  match k with
  | .low6 => true
  | .full8 => i.canonical

end Sys2Proof.Instr
end

