-- ==== Sys2Proof/Decode.lean ====
section
/-! DEFINITION. The opcode byte's fields, the dispatch table, the decoder, the encoder and the assembly text
(30_encoding.md). The numeric opcode values are the spec's decision D1, the place of the C bit its decision D2
(log entry 1). -/

namespace Sys2Proof

/-! ## The opcode byte (R71) -/

/-- `DISPATCH_KEY` (R6): the spec's value is `low6` (R79, R103, decision D22; log entry 6). -/
def dispatchKey : Config.DispatchKey := .low6

/-- `SETS_PC_BIT` (R6): bit 4 (R71, R104; 90_conflicts.md C1). -/
def setsPcBit : Nat := 4

/-- `op[5:0]`, the operation identifier (R71). -/
def opId (op : Byte) : BitVec 6 := op.extractLsb' 0 6

/-- `op[7:6]`, the declared operand count AA (R71). -/
def opAA (op : Byte) : BitVec 2 := op.extractLsb' 6 2

/-- The C bit: the instruction sets `pc` itself (R71). -/
def opSetsPc (op : Byte) : Bool := op.getLsbD setsPcBit

/-- The opcode byte with the given AA and ID (R71). -/
def opByte (aa : BitVec 2) (id : BitVec 6) : Byte := aa ++ id

/-! ## The dispatch table (R77) -/

/-- One row of the table of R77: the identifier, the AA of the canonical byte, and the instruction that the row's
handler runs on the fetched operand bytes (R76: a row that ignores an operand drops it). -/
structure Row where
  id : BitVec 6
  canonicalAA : BitVec 2
  build : BitVec 2 → Byte → Byte → Instr

/-- The table of R77, in its order. -/
def dispatchTable : List Row :=
  [ ⟨0x02, 2, fun aa a b => .ldi aa a b⟩,
    ⟨0x07, 1, fun aa a _ => .prn aa a⟩,
    ⟨0x01, 0, fun aa _ _ => .hlt aa⟩,
    ⟨0x22, 2, fun aa a b => .mul aa a b⟩,
    ⟨0x20, 2, fun aa a b => .add aa a b⟩,
    ⟨0x27, 2, fun aa a b => .cmp aa a b⟩,
    ⟨0x05, 1, fun aa a _ => .push aa a⟩,
    ⟨0x06, 1, fun aa a _ => .pop aa a⟩,
    ⟨0x10, 1, fun aa a _ => .call aa a⟩,
    ⟨0x11, 0, fun aa _ _ => .ret aa⟩,
    ⟨0x04, 2, fun aa a b => .st aa a b⟩ ]

/-- Whether the opcode byte selects the row: by its identifier under `LOW6`, by the whole byte under `FULL8` (R103). -/
def Row.selects (k : Config.DispatchKey) (op : Byte) (r : Row) : Bool :=
  match k with
  | .low6 => opId op == r.id
  | .full8 => op == opByte r.canonicalAA r.id

/-! ## The decoder (R103) -/

/-- Why bytes decode to no instruction. -/
inductive Reject where
  /-- the opcode byte selects no row of the dispatch table (R78): the engine raises UnknownInstruction -/
  | unknownInstruction (op : Byte)
  /-- fewer than the three bytes a fetch delivers (R101); the engine never decodes such a list -/
  | truncated
  deriving DecidableEq, Repr

/-- Decode a fetched triple (R103) under a value of `DISPATCH_KEY`. -/
def decodeTriple (k : Config.DispatchKey) (op opA opB : Byte) : Except Reject Instr :=
  match dispatchTable.find? (Row.selects k op) with
  | some r => .ok (r.build (opAA op) opA opB)
  | none => .error (.unknownInstruction op)

/-- Decode a list of bytes that lie at increasing addresses (R56): the first three are the triple. -/
def decode : List Byte → Except Reject Instr
  | op :: opA :: opB :: _ => decodeTriple dispatchKey op opA opB
  | _ => .error .truncated

/-- The three fetched bytes of an instruction whose bits are `w`, numbered as opcode_table.json numbers them: the
opcode byte is bits 7..0, opA bits 15..8, opB bits 23..16 (R56); bits from `nbits` on are 0. -/
def tableBytes (nbits w : Nat) : List Byte :=
  [BitVec.ofNat 8 (w % 2 ^ nbits), BitVec.ofNat 8 (w % 2 ^ nbits / 0x100), BitVec.ofNat 8 (w % 2 ^ nbits / 0x10000)]

/-- What the decoder reads from a row's word of opcode_table.json. -/
def decodeTableWord (nbits w : Nat) : Option Instr :=
  (decode (tableBytes nbits w)).toOption

/-! ## The encoder (R70, R77) -/

namespace Instr

/-- The instruction's operation identifier (R77). -/
def ident : Instr → BitVec 6
  | ldi _ _ _ => 0x02
  | prn _ _ => 0x07
  | hlt _ => 0x01
  | mul _ _ _ => 0x22
  | add _ _ _ => 0x20
  | cmp _ _ _ => 0x27
  | push _ _ => 0x05
  | pop _ _ => 0x06
  | call _ _ => 0x10
  | ret _ => 0x11
  | st _ _ _ => 0x04

/-- The instruction's opcode byte (R71). -/
def opcodeByte (i : Instr) : Byte := opByte i.aa i.ident

/-- The operand bytes the instruction uses, in encoding order (R70, R76). -/
def operandBytes : Instr → List Byte
  | ldi _ a imm => [a, imm]
  | prn _ a => [a]
  | hlt _ => []
  | mul _ a b => [a, b]
  | add _ a b => [a, b]
  | cmp _ a b => [a, b]
  | push _ a => [a]
  | pop _ a => [a]
  | call _ a => [a]
  | ret _ => []
  | st _ a b => [a, b]

end Instr

/-- The instruction's bytes at increasing addresses: the opcode byte and the operand bytes its format has (R70). -/
def encode (i : Instr) : List Byte := i.opcodeByte :: i.operandBytes

/-! ## Assembly text (R81) -/

namespace Instr

/-- The mnemonic of R77 (decision D3). -/
def mnemonic : Instr → String
  | ldi _ _ _ => "LDI"
  | prn _ _ => "PRN"
  | hlt _ => "HLT"
  | mul _ _ _ => "MUL"
  | add _ _ _ => "ADD"
  | cmp _ _ _ => "CMP"
  | push _ _ => "PUSH"
  | pop _ _ => "POP"
  | call _ _ => "CALL"
  | ret _ => "RET"
  | st _ _ _ => "ST"

/-- The operands as R81 writes them: registers as `R0`..`R7`, the immediate as a number, in encoding order. Two points
R81 leaves open are DESIGN CHOICES: the immediate is always decimal (log entry 27), and a register operand byte of 8 or
more, which R81 has no text for, is written `R8`..`R255` (log entry 28). -/
def operandTexts : Instr → List String
  | ldi _ a imm => ["R" ++ toString a.toNat, toString imm.toNat]
  | i => i.regOperands.map (fun r => "R" ++ toString r.toNat)

/-- `MNEMONIC operands` (R81). The text does not show AA: it is that of the canonical encoding (log entry 25). -/
def asm (i : Instr) : String :=
  match i.operandTexts with
  | [] => i.mnemonic
  | ts => i.mnemonic ++ " " ++ String.intercalate ", " ts

end Instr

end Sys2Proof
end

