-- ==== Sys2Proof/Machine/State.lean ====
section
/-! DEFINITION. The engine's state (10_state.md), its reset value (R190, phase 1), and the reasons a step can stop. -/

namespace Sys2Proof.Machine

/-- The spec's fault with its information (R161 to R164; what each records is decision D12, log entry 11). It is state:
raising it sets `run` (R165). -/
inductive FaultRecord where
  /-- R161: an access at `addr`, not below `MEM_SIZE`, in the cycle at `pc`. -/
  | addressFault (addr pc : Nat)
  /-- R162: no row of the dispatch table for the opcode byte. -/
  | unknownInstruction (op : Byte) (pc : Nat)
  /-- R163: PUSH with SP - 1 < EM. -/
  | stackOverflow (pc : Nat) (sp em : Byte)
  /-- R164: an operand byte of 8 or more in a register position. -/
  | registerIndexFault (pc : Nat) (index : Byte)
  deriving DecidableEq, Repr

/-- The run state (R35). -/
inductive Run where
  | running
  | halted
  | faulted (f : FaultRecord)
  deriving DecidableEq, Repr

/-- Why the host's step has no next state. A fault of the PROGRAM is not one of these: it is a next state whose `run`
is `faulted` (R165). -/
inductive Fault where
  /-- Raised by `step` alone, when `run` is `halted`: "The engine has no step from them" (R108). Safe: nothing is
  claimed of a state after it. -/
  | engineHalted
  /-- Raised by `step` alone, when `run` is `faulted f` (R108). Safe, as above. -/
  | engineFaulted (f : FaultRecord)
  deriving DecidableEq, Repr

/-- Why an instruction gets no meaning. -/
inductive Refusal where
  /-- Raised by `exec`'s arm of an instruction without a meaning; no arm of this model does. Safe. -/
  | notModelled (mnemonic : String)
  /-- Raised by CALL at SP = 0 under `SP_EDGE = refuse` only (R152, decision D7); this model takes `wrap`, so no step
  answers it. Safe. -/
  | spBelowZero
  /-- Raised by RETURN at SP = 0xFF under `SP_EDGE = refuse` only (R153, decision D7); this model takes `wrap`, so no
  step answers it. Safe. -/
  | spAboveMax
  deriving DecidableEq, Repr

/-- What ends a handler early: the spec's fault (R165), or a refusal. -/
inductive Stop where
  | fault (f : FaultRecord)
  | refuse (r : Refusal)
  deriving DecidableEq, Repr

/-- The whole state of the engine (10_state.md). -/
structure State where
  /-- the register file R0..R7 (R20); R4 is EM (R23) and R7 is SP (R22) -/
  x : Vector Byte 8
  /-- the flags register FL (R33) -/
  fl : Byte
  /-- the program counter, an unbounded natural number (R29) -/
  pc : Nat
  /-- memory (R37): the cells that do not hold 0, at rising addresses (log entry 24) -/
  mem : List Host.Cell
  /-- the run state (R35) -/
  run : Run
  /-- the values PRINT has emitted, oldest first (R39) -/
  out : List Byte
  deriving DecidableEq, Repr

/-- The state right after reset, before a program is loaded (R190, phase 1; FL by decision D5, log entry 2; pc by
decision D4, log entry 3). -/
def State.reset : State where
  x := #v[0, 0, 0, 0, 0, 0, 0, Config.spTop]
  fl := 0
  pc := 0
  mem := []
  run := .running
  out := []

/-- What a cycle answers. -/
abbrev Result := Host.Outcome State Fault Refusal

end Sys2Proof.Machine
end

