-- ==== Sys2Proof/Machine/Memory.lean ====
section
/-! DEFINITION. Memory as a list of cells in one canonical form: reading, writing, and the form itself (R37, R50). -/

namespace Sys2Proof.Machine

/-- Memory: the cells that are listed (log entry 24). -/
abbrev Memory := List Host.Cell

namespace Memory

/-- What an unlisted cell reads as: memory is zero-initialized (R37, R38). -/
def unlisted : Byte := 0

/-- The byte at an address. -/
def read : Memory → Nat → Byte
  | [], _ => unlisted
  | (k, b) :: m, a => if k = a then b else read m a

/-- Put a cell before the first one at its address or above. -/
def insert (m : Memory) (a : Nat) (v : Byte) : Memory :=
  match m with
  | [] => [(a, v)]
  | (k, b) :: m' => if a ≤ k then (a, v) :: (k, b) :: m' else (k, b) :: insert m' a v

/-- The memory without a listed cell at the address. -/
def erase (m : Memory) (a : Nat) : Memory := m.filter (fun c => c.1 != a)

/-- The memory with `v` at the address. -/
def write (m : Memory) (a : Nat) (v : Byte) : Memory :=
  if v = unlisted then m.erase a else (m.erase a).insert a v

/-- The bytes of a list at rising addresses from `a` on. -/
def writeAll (m : Memory) (a : Nat) : List Byte → Memory
  | [] => m
  | b :: bs => writeAll (m.write a b) (a + 1) bs

/-- The canonical form: addresses strictly rising and below `MEM_SIZE`, and no cell listed that holds what an unlisted
cell reads as. -/
abbrev wf (m : Memory) : Prop :=
  m.Pairwise (fun c d => c.1 < d.1) ∧ ∀ c ∈ m, c.1 < Config.memSize ∧ c.2 ≠ unlisted

end Memory

end Sys2Proof.Machine
end

