-- ==== Sys2Proof/Machine/Ops.lean ====
section
/-! DEFINITION. The named operations of R8: registers, memory, output, the stack pointer's edges, raising a fault, and
what the engine does around a handler: fetch (R101), advance (R104), halt (R106). -/

namespace Sys2Proof.Machine

/-! ## Registers (R8, R20) -/

namespace State

/-- `x[r]`. -/
def reg (s : State) (r : Fin 8) : Byte := s.x.get r

/-- `x[r] <- v`. No register discards writes (R20). -/
def setReg (s : State) (r : Fin 8) (v : Byte) : State := { s with x := s.x.set r v }

/-- `SP`, another name for `x[7]`. -/
def sp (s : State) : Byte := s.reg Config.spReg

/-- `EM`, another name for `x[4]`. -/
def em (s : State) : Byte := s.reg Config.emReg

/-- The byte of memory at an address, for statements about memory; an access of the engine goes through `memRead`. -/
def byte (s : State) (a : Nat) : Byte := Memory.read s.mem a

/-- `mem[addr] <- v`: one cell takes the value. -/
def store (s : State) (a : Nat) (v : Byte) : State := { s with mem := Memory.write s.mem a v }

/-- `pc <- target` (R8). -/
def setPc (s : State) (n : Nat) : State := { s with pc := n }

/-- `FL <- v` (R8). -/
def setFl (s : State) (v : Byte) : State := { s with fl := v }

/-- `emit(v)` (R8, R175): the output port takes the value; it never stalls or fails. -/
def emit (s : State) (v : Byte) : State := { s with out := s.out ++ [v] }

end State

/-! ## Raising a fault (R165) -/

/-- `raise F(info)`, given the state BEFORE the cycle: every value of it is kept and `run` becomes `Faulted(F, info)`
(R109, R165, R167). -/
def raise (s : State) (f : FaultRecord) : State := { s with run := .faulted f }

/-! ## Memory (R53, R54) -/

/-- `MemRead(addr, 1)` (R53); the record holds the address and the pc (D12). -/
def memRead (s : State) (addr : Nat) : Except Stop Byte :=
  if addr < Config.memSize then .ok (Memory.read s.mem addr)
  else .error (.fault (.addressFault addr s.pc))

/-- `MemWrite(addr, 1, v)` (R54, bound-checked by decision D8, log entry 7). -/
def memWrite (s : State) (addr : Nat) (v : Byte) : Except Stop State :=
  if addr < Config.memSize then .ok (s.store addr v)
  else .error (.fault (.addressFault addr s.pc))

/-! ## The stack pointer's edges (R152, R153) -/

/-- `SP_EDGE` (R6): the spec's value is `wrap` (decision D7; log entry 5). -/
def spEdge : Config.SpEdge := .wrap

/-- `CALL_RET_OFFSET` (R6, R152): "a fixed convention, not computed from the opcode's declared operand count". -/
def callRetOffset : Nat := 2

/-- `(SP - 1) mod 256`, per `SP_EDGE` (R152). -/
def spDecrement (e : Config.SpEdge) (sp : Byte) : Except Stop Byte :=
  match e with
  | .wrap => .ok (sp - 1)
  | .refuse => if sp = 0 then .error (.refuse .spBelowZero) else .ok (sp - 1)

/-- `(SP + 1) mod 256`, per `SP_EDGE` (R153). -/
def spIncrement (e : Config.SpEdge) (sp : Byte) : Except Stop Byte :=
  match e with
  | .wrap => .ok (sp + 1)
  | .refuse => if sp = 0xFF then .error (.refuse .spAboveMax) else .ok (sp + 1)

/-! ## The cycle around a handler (R107) -/

/-- The instruction triple of a cycle (R40). -/
structure Triple where
  op : Byte
  opA : Byte
  opB : Byte
  deriving DecidableEq, Repr

/-- Fetch (R101): three reads in order, whatever the instruction's length; the first out-of-range address faults
(R102, decision D9, log entry 8). -/
def fetch (s : State) : Except Stop Triple := do
  let op ← memRead s s.pc
  let opA ← memRead s (s.pc + 1)
  let opB ← memRead s (s.pc + 2)
  return ⟨op, opA, opB⟩

/-- Fetch, then decode and dispatch (R103): the instruction of this cycle, or the fault that ends it. -/
def fetchDecode (s : State) : Except Stop Instr := do
  let t ← fetch s
  match decode [t.op, t.opA, t.opB] with
  | .ok i => return i
  | .error _ => .error (.fault (.unknownInstruction t.op s.pc))

/-- Advance (R104): by `1 + op[7:6]`, on unbounded integers (R30), unless the opcode's C bit is set. -/
def advance (op : Byte) (s : State) : State :=
  if opSetsPc op then s else s.setPc (s.pc + 1 + (opAA op).toNat)

/-- `if halting then run <- Halted` (R106). -/
def haltIf (halting : Bool) (s : State) : State :=
  if halting then { s with run := .halted } else s

/-- End the cycle that began in `s` with opcode byte `op` after a handler's result `h` (R107): advance, then halt if the
handler signalled it; a fault discards what the handler wrote (R109). -/
def completeCycle (s : State) (op : Byte) (halting : Bool) (h : Except Stop State) : Result :=
  match h with
  | .ok s' => .next (haltIf halting (advance op s'))
  | .error (.fault f) => .next (raise s f)
  | .error (.refuse r) => .refused r

end Sys2Proof.Machine
end

