-- ==== Sys2Proof/Machine/Operands.lean ====
section
/-! DEFINITION. The one operand form that is more than a byte: the register operand (R74). The immediate is used as it
is (R75). -/

namespace Sys2Proof.Machine

/-- The operand byte that names a register (R74). -/
def regByte (r : Fin 8) : Byte := BitVec.ofNat 8 r.val

/-- The register an operand byte names: the whole byte is the index, and 0..7 are legal (R74). -/
def regIndex (b : Byte) : Option (Fin 8) :=
  if h : b.toNat < Config.nReg then some ⟨b.toNat, h⟩ else none

/-- A register operand: its index, or RegisterIndexFault (R74, R164, decision D6; log entry 4). -/
def regOperand (s : State) (b : Byte) : Except Stop (Fin 8) :=
  match regIndex b with
  | some r => .ok r
  | none => .error (.fault (.registerIndexFault s.pc b))

end Sys2Proof.Machine
end

