-- ==== Sys2Proof/Machine/Alu.lean ====
section
/-! DEFINITION. The ALU: ADD, MULTIPLY and COMPARE (42_alu.md). -/

namespace Sys2Proof.Machine

/-- The exact sum, reduced modulo 256 (R130, R133). -/
def aluAdd (a b : Byte) : Byte := BitVec.ofNat 8 (a.toNat + b.toNat)

/-- The exact product, reduced modulo 256 (R131, R133). -/
def aluMul (a b : Byte) : Byte := BitVec.ofNat 8 (a.toNat * b.toNat)

/-- ADD (R130). -/
def execAdd (aa : BitVec 2) (a b : Byte) (s : State) : Result :=
  completeCycle s (Instr.add aa a b).opcodeByte false do
    let ra ← regOperand s a
    let rb ← regOperand s b
    return s.setReg ra (aluAdd (s.reg ra) (s.reg rb))

/-- MUL (R131). -/
def execMul (aa : BitVec 2) (a b : Byte) (s : State) : Result :=
  completeCycle s (Instr.mul aa a b).opcodeByte false do
    let ra ← regOperand s a
    let rb ← regOperand s b
    return s.setReg ra (aluMul (s.reg ra) (s.reg rb))

/-- CMP (R132). -/
def execCmp (aa : BitVec 2) (a b : Byte) (s : State) : Result :=
  completeCycle s (Instr.cmp aa a b).opcodeByte false do
    let ra ← regOperand s a
    let rb ← regOperand s b
    return s.setFl (compareFlags s.fl (s.reg ra) (s.reg rb))

end Sys2Proof.Machine
end

