-- ==== Sys2Proof/Machine/Control.lean ====
section
/-! DEFINITION. HALT, CALL and RETURN (44_control.md). The handlers of CALL and RETURN take `SP_EDGE` as an argument;
their meanings give them the model's value of it. -/

namespace Sys2Proof.Machine

/-- HLT (R150): the handler only signals halt; the engine advances and then halts (R106, decision D10; log entry 9). -/
def execHlt (aa : BitVec 2) (s : State) : Result :=
  completeCycle s (Instr.hlt aa).opcodeByte true (.ok s)

/-- The return address CALL pushes (R152): `pc + 2`, one byte. It is at most 255 in every cycle, since a cycle executes
only at `pc ≤ 253` (R102); for a larger pc, which no cycle has, its low byte is meant (log entry 19). -/
def returnAddress (s : State) : Byte := BitVec.ofNat 8 (s.pc + callRetOffset)

/-- CALL's handler (R152): decrement SP, write the return address, then read the target. -/
def callHandler (e : Config.SpEdge) (a : Byte) (s : State) : Except Stop State := do
  let ra ← regOperand s a
  let sp' ← spDecrement e s.sp
  let s₁ := s.setReg Config.spReg sp'
  let s₂ ← memWrite s₁ s₁.sp.toNat (returnAddress s)
  return s₂.setPc (s₂.reg ra).toNat

/-- RETURN's handler (R153): read the target, then increment SP. -/
def retHandler (e : Config.SpEdge) (s : State) : Except Stop State := do
  let target ← memRead s s.sp.toNat
  let sp' ← spIncrement e s.sp
  return (s.setReg Config.spReg sp').setPc target.toNat

/-- CALL (R152). -/
def execCall (aa : BitVec 2) (a : Byte) (s : State) : Result :=
  completeCycle s (Instr.call aa a).opcodeByte false (callHandler spEdge a s)

/-- RET (R153). -/
def execRet (aa : BitVec 2) (s : State) : Result :=
  completeCycle s (Instr.ret aa).opcodeByte false (retHandler spEdge s)

end Sys2Proof.Machine
end

