-- ==== Sys2Proof/Machine/LoadPrintStore.lean ====
section
/-! DEFINITION. LOAD-IMMEDIATE, PRINT and STORE (41_load_print_store.md). -/

namespace Sys2Proof.Machine

/-- LDI (R120). -/
def execLdi (aa : BitVec 2) (a imm : Byte) (s : State) : Result :=
  completeCycle s (Instr.ldi aa a imm).opcodeByte false do
    let ra ← regOperand s a
    return s.setReg ra imm

/-- PRN (R121). -/
def execPrn (aa : BitVec 2) (a : Byte) (s : State) : Result :=
  completeCycle s (Instr.prn aa a).opcodeByte false do
    let ra ← regOperand s a
    return s.emit (s.reg ra)

/-- ST (R122). -/
def execSt (aa : BitVec 2) (a b : Byte) (s : State) : Result :=
  completeCycle s (Instr.st aa a b).opcodeByte false do
    let ra ← regOperand s a
    let rb ← regOperand s b
    memWrite s (s.reg rb).toNat (s.reg ra)

end Sys2Proof.Machine
end

