-- ==== Sys2Proof/Machine/Stack.lean ====
section
/-! DEFINITION. PUSH and POP (43_stack.md). The steps run in the order the source writes them, so a later step reads
what an earlier one wrote (decision D24; log entry 14). -/

namespace Sys2Proof.Machine

/-- PUSH (R140). The bound check is on unbounded integers, `SP >= EM + 1` (decision D23; log entry 13). -/
def execPush (aa : BitVec 2) (a : Byte) (s : State) : Result :=
  completeCycle s (Instr.push aa a).opcodeByte false do
    let ra ← regOperand s a
    if s.em.toNat + 1 ≤ s.sp.toNat then
      let s₁ := s.setReg Config.spReg (s.sp - 1)
      memWrite s₁ s₁.sp.toNat (s₁.reg ra)
    else
      .error (.fault (.stackOverflow s.pc s.sp s.em))

/-- POP's second step (R141): SP is read after the load, and moves up only below `SP_TOP`. -/
def popIncrement (s : State) : State :=
  if s.sp < Config.spTop then s.setReg Config.spReg (s.sp + 1) else s

/-- POP (R141). -/
def execPop (aa : BitVec 2) (a : Byte) (s : State) : Result :=
  completeCycle s (Instr.pop aa a).opcodeByte false do
    let ra ← regOperand s a
    let v ← memRead s s.sp.toNat
    return popIncrement (s.setReg ra v)

end Sys2Proof.Machine
end

