-- ==== Sys2Proof/Machine/Dispatch.lean ====
section
/-! DEFINITION. The dispatcher (R103): one arm for each instruction of R77, each the instruction's own meaning. -/

namespace Sys2Proof.Machine

/-- Execute an instruction in the cycle that began in `s`: the handler, the advance and the halt of R107. -/
def exec (i : Instr) (s : State) : Host.Outcome State Fault Refusal :=
  match i with
  | .ldi aa a imm => Sys2Proof.Machine.execLdi aa a imm s
  | .prn aa a => Sys2Proof.Machine.execPrn aa a s
  | .hlt aa => Sys2Proof.Machine.execHlt aa s
  | .mul aa a b => Sys2Proof.Machine.execMul aa a b s
  | .add aa a b => Sys2Proof.Machine.execAdd aa a b s
  | .cmp aa a b => Sys2Proof.Machine.execCmp aa a b s
  | .push aa a => Sys2Proof.Machine.execPush aa a s
  | .pop aa a => Sys2Proof.Machine.execPop aa a s
  | .call aa a => Sys2Proof.Machine.execCall aa a s
  | .ret aa => Sys2Proof.Machine.execRet aa s
  | .st aa a b => Sys2Proof.Machine.execSt aa a b s

end Sys2Proof.Machine
end

