-- ==== Sys2Proof/Machine/Step.lean ====
section
/-! DEFINITION. One step of the engine: one whole cycle (R100, R107). -/

namespace Sys2Proof.Machine

/-- One cycle, while `run` is `Running` (R100); from the two terminal run states there is no step (R108; log entry 23).
A fault before the handler ends the cycle with the state as it was (R165). -/
def step (s : State) : Host.Outcome State Fault Refusal :=
  match s.run with
  | .halted => .fault .engineHalted
  | .faulted f => .fault (.engineFaulted f)
  | .running =>
    match fetchDecode s with
    | .ok i => exec i s
    | .error (.fault f) => .next (raise s f)
    | .error (.refuse r) => .refused r

/-- Where the next fetch can read three bytes: at `pc`, or at 0 when `pc` is past 253 (R102). -/
def fetchPlace (s : State) : Nat := if s.pc + 2 < Config.memSize then s.pc else 0

/-- `s` with the instruction of a row's word stored where `step` fetches, and `run` and `pc` such that it fetches there
(log entry 21). -/
def State.withFetchWord (s : State) (nbits w : Nat) : State :=
  { s with
    pc := fetchPlace s
    run := .running
    mem := Memory.writeAll s.mem (fetchPlace s) (tableBytes nbits w) }

end Sys2Proof.Machine
end

