-- ==== Sys2Proof/Machine/Ports.lean ====
section
/-! DEFINITION. What the host reads of the engine: the trace port (R176), the output's rendering (R175), and a run's
status and exit codes (R168). None of it changes the state. -/

namespace Sys2Proof.Machine

/-! ## The trace port -/

/-- The snapshot a tracer may read between cycles (R176). FL and `out` are not part of it. -/
structure TraceSnapshot where
  pc : Nat
  /-- the bytes at pc, pc+1, pc+2; `none` where the address does not exist (log entry 20) -/
  bytes : List (Option Byte)
  regs : List Byte
  deriving DecidableEq, Repr

/-- The snapshot of the state a cycle starts from (decision D15; log entry 16). -/
def trace (s : State) : TraceSnapshot where
  pc := s.pc
  bytes := [s.pc, s.pc + 1, s.pc + 2].map (fun a => (memRead s a).toOption)
  regs := s.x.toList

/-! ## The output port -/

/-- The output log as the host renders it: each value as its decimal digits, one a line (R175, decision D14; log
entry 17). -/
def renderedOutput (s : State) : List String := s.out.map (fun v => toString v.toNat)

/-! ## The end of a run -/

/-- The status code of a fault (R161 to R164, decision D13; log entry 18). -/
def FaultRecord.statusCode : FaultRecord → Nat
  | .addressFault _ _ => 1
  | .unknownInstruction _ _ => 2
  | .stackOverflow _ _ _ => 3
  | .registerIndexFault _ _ => 4

/-- The status code of a run's end; a running engine has none (R168). -/
def Run.statusCode : Run → Option Nat
  | .running => none
  | .halted => some 0
  | .faulted f => some f.statusCode

/-- The process exit code of a run's end, for given exit-code parameters (R168). -/
def Run.exitCode (c : Config.ExitCodes) : Run → Option Nat
  | .running => none
  | .halted => some 0
  | .faulted (.addressFault _ _) => some c.addressFault
  | .faulted (.unknownInstruction _ _) => some c.unknownInstruction
  | .faulted (.stackOverflow _ _ _) => some c.stackOverflow
  | .faulted (.registerIndexFault _ _) => some c.registerIndex

end Sys2Proof.Machine
end

