-- ==== Sys2Proof/Machine/Loader.lean ====
section
/-! DEFINITION. The load of a program before the first cycle (R190 phase 2, R191). The loader's text parsing is outside
the core (R5). -/

namespace Sys2Proof.Machine

/-- Why an image is refused at load (R191). -/
inductive LoadRefusal where
  /-- more than 255 bytes: the length does not fit in R4 (decision D18; log entry 15) -/
  | imageTooLong (length : Nat)
  deriving DecidableEq, Repr

/-- The largest image length, so that it fits in R4 (R191). -/
def maxImageLength : Nat := 255

/-- The state the first cycle starts from: reset, the image from address 0 on, and EM the image's length (R190). -/
def load (image : List Byte) : Except LoadRefusal State :=
  if image.length ≤ maxImageLength then
    .ok ({ State.reset with mem := Memory.writeAll State.reset.mem 0 image }.setReg Config.emReg
      (BitVec.ofNat 8 image.length))
  else .error (.imageTooLong image.length)

end Sys2Proof.Machine
end

