-- ==== Sys2Proof/Machine/Run.lean ====
section
/-! DEFINITION. A run under fuel (R111, R178), and a run of a sequence of instructions for laws over several cycles. -/

namespace Sys2Proof.Machine

/-- What a run under fuel answers (R178): the final state of a run that ended, or the state in which the fuel ran out,
"which is not an end". -/
inductive RunEnd where
  | ended (s : State)
  | outOfFuel (s : State)
  /-- a step was refused; no step of this model is -/
  | refused (r : Refusal)
  deriving DecidableEq, Repr

/-- Run until `run` is no longer `Running`, for at most `fuel` cycles (R111, R178). -/
def runFuel (fuel : Nat) (s : State) : RunEnd :=
  if s.run = .running then
    match fuel with
    | 0 => .outOfFuel s
    | n + 1 =>
      match step s with
      | .next s' => runFuel n s'
      | .fault _ => .ended s
      | .refused r => .refused r
  else .ended s

/-- A program from its image, under fuel: load, then run (R177). -/
def runImage (fuel : Nat) (image : List Byte) : Except LoadRefusal RunEnd :=
  (load image).map (runFuel fuel)

/-- Execute instructions one after another, each in a cycle of its own, as long as the engine is running. -/
def execAll : List Instr → State → Result
  | [], s => .next s
  | i :: is, s =>
    match exec i s with
    | .next t => if t.run = .running then execAll is t else .next t
    | .fault f => .fault f
    | .refused r => .refused r

end Sys2Proof.Machine
end

