-- ==== Sys2Proof/Safety.lean ====
section
/-! DEFINITION. The terms claims are stated in: what every state of a run satisfies, what a fault record says of the
state it stands in, which fault a cycle meets first, and what each instruction may read and write. -/

namespace Sys2Proof.Machine

/-! ## The invariant of a run -/

/-- FL holds nothing but at most one of E, G and L: its reset value or the result of a COMPARE (R33, R34). -/
abbrev flagsLegal (fl : Byte) : Prop := fl = 0x00 ∨ fl = 0x01 ∨ fl = 0x02 ∨ fl = 0x04

/-- The record is true of the state it was raised in: `pc` is that of the faulting cycle (R109), and the cause of
R161 to R164 holds in it. -/
def FaultRecord.describes (s : State) : FaultRecord → Prop
  | .addressFault addr pc => pc = s.pc ∧ 253 < pc ∧ addr = max pc 256
  | .unknownInstruction op pc =>
    pc = s.pc ∧ pc ≤ 253 ∧ op = s.byte pc ∧ ∀ r ∈ dispatchTable, r.id ≠ opId op
  | .stackOverflow pc sp em =>
    pc = s.pc ∧ pc ≤ 253 ∧ opId (s.byte pc) = 0x05 ∧ sp = s.sp ∧ em = s.em ∧ sp.toNat ≤ em.toNat
  | .registerIndexFault pc index =>
    pc = s.pc ∧ pc ≤ 253 ∧ 8 ≤ index.toNat ∧ (index = s.byte (pc + 1) ∨ index = s.byte (pc + 2))

/-- The invariant of a run: memory in canonical form; `pc` at most 257 (R29); FL legal (R33, R34); and a fault record,
if there is one, describes the state (R165). -/
structure Inv (s : State) : Prop where
  memory : Memory.wf s.mem
  pc : s.pc ≤ 257
  flags : flagsLegal s.fl
  record : ∀ f, s.run = .faulted f → f.describes s

/-- The engine has not faulted; halting is success (R160). -/
abbrev State.safe (s : State) : Prop := ∀ f, s.run ≠ .faulted f

/-! ## The first fault of a cycle (R166), written from the rule's list and not from the handlers -/

/-- The register-index fault of an instruction at `pc`, opA before opB (R166 item 3). -/
def firstRegisterFault (pc : Nat) (operands : List Byte) : Option FaultRecord :=
  (operands.find? (fun b => 8 ≤ b.toNat)).map (.registerIndexFault pc)

/-- The first fault that a cycle beginning in `s` meets, in the order of R166. The identifiers that use a register
operand are those of R164, the ones that also use opB as a register those of R76. -/
def firstFault (s : State) : Option FaultRecord :=
  let op := s.byte s.pc
  let opA := s.byte (s.pc + 1)
  let opB := s.byte (s.pc + 2)
  if 256 ≤ s.pc then some (.addressFault s.pc s.pc)
  else if 256 ≤ s.pc + 1 then some (.addressFault (s.pc + 1) s.pc)
  else if 256 ≤ s.pc + 2 then some (.addressFault (s.pc + 2) s.pc)
  else if opId op ∈ [0x20, 0x22, 0x27, 0x04] then firstRegisterFault s.pc [opA, opB]
  else if opId op ∈ [0x02, 0x07, 0x06, 0x10] then firstRegisterFault s.pc [opA]
  else if opId op = 0x05 then
    (firstRegisterFault s.pc [opA]).or
      (if (s.sp.toNat : Int) - 1 < s.em.toNat then some (.stackOverflow s.pc s.sp s.em) else none)
  else if opId op ∈ [0x01, 0x11] then none
  else some (.unknownInstruction op s.pc)

/-! ## Who reads and writes what (R25, R51) -/

/-- The registers an instruction reads, explicitly or implicitly: R25's table, as operand bytes. -/
def registerReads : Instr → List Byte
  | .ldi _ _ _ => []
  | .prn _ a => [a]
  | .hlt _ => []
  | .mul _ a b => [a, b]
  | .add _ a b => [a, b]
  | .cmp _ a b => [a, b]
  | .push _ a => [a, regByte Config.spReg, regByte Config.emReg]
  | .pop _ _ => [regByte Config.spReg]
  | .call _ a => [a, regByte Config.spReg]
  | .ret _ => [regByte Config.spReg]
  | .st _ a b => [a, b]

/-- The registers an instruction may write, explicitly or implicitly: R25's table, as operand bytes. -/
def registerWrites : Instr → List Byte
  | .ldi _ a _ => [a]
  | .prn _ _ => []
  | .hlt _ => []
  | .mul _ a _ => [a]
  | .add _ a _ => [a]
  | .cmp _ _ _ => []
  | .push _ _ => [regByte Config.spReg]
  | .pop _ a => [a, regByte Config.spReg]
  | .call _ _ => [regByte Config.spReg]
  | .ret _ => [regByte Config.spReg]
  | .st _ _ _ => []

/-- The address an instruction may store to: R51's table. -/
def storeAddress (s : State) : Instr → Option Nat
  | .push _ _ => some (s.sp - 1).toNat
  | .call _ _ => some (s.sp - 1).toNat
  | .st _ _ b => (regIndex b).map (fun rb => (s.reg rb).toNat)
  | .ldi _ _ _ => none
  | .prn _ _ => none
  | .hlt _ => none
  | .mul _ _ _ => none
  | .add _ _ _ => none
  | .cmp _ _ _ => none
  | .pop _ _ => none
  | .ret _ => none

/-- Every byte of memory reads as before. -/
def sameMemory (s t : State) : Prop := ∀ c, t.byte c = s.byte c

/-- Every register outside the list reads as before. -/
def sameRegistersBut (rs : List (Fin 8)) (s t : State) : Prop := ∀ q, q ∉ rs → t.reg q = s.reg q

end Sys2Proof.Machine
end

