-- ==== Sys2Proof/Certificates/Slice0/Obligations.lean ====
section
/-! DEFINITION. The statements for the provers. A register operand is written `regByte r`, the operand byte of register
`r`: these are all the legal operand bytes (R74); the other bytes are the subject of IllegalFirstRegisterOperandFaults
and IllegalSecondRegisterOperandFaults. A statement about exec also speaks of states in which no cycle executes an
instruction (`run` not Running, `pc` above 253): that exec tests neither is the model's own choice (log entry 19). -/

open Sys2Proof Sys2Proof.Machine

/-- Reset and load: the register file and memory before the first cycle. R26, R38. The limit of 255 bytes is the
spec's decision D18 (log entry 15). -/
def Obligations.LoadedRegistersAndMemory : Prop :=
  (State.reset.reg 7 = 0xF4 ∧ (∀ q, q ≠ 7 → State.reset.reg q = 0) ∧ ∀ c, State.reset.byte c = 0) ∧
  ∀ image : List Byte, image.length ≤ 255 → ∃ t, load image = .ok t ∧
    (t.reg 4).toNat = image.length ∧ t.reg 7 = 0xF4 ∧ (∀ q, q ≠ 4 → q ≠ 7 → t.reg q = 0) ∧
    ∀ c, t.byte c = image.getD c 0

/-- Reset and load: run, out, FL and pc (FL and pc by the spec's decisions D5 and D4). FL is the spec's decision D5
(log entry 2), pc its decision D4 (log entry 3), the image limit its decision D18 (log entry 15). -/
def Obligations.LoadedRunStateFlagsAndPc : Prop :=
  (State.reset.run = .running ∧ State.reset.out = [] ∧ State.reset.fl = 0x00 ∧ State.reset.pc = 0) ∧
  (∀ image t, load image = .ok t → t.run = .running ∧ t.out = [] ∧ t.fl = 0x00 ∧ t.pc = 0) ∧
  ∀ image, (∃ t, load image = .ok t) ↔ image.length ≤ 255

/-- Eight registers; a write is read back, touches no other register, and no register is hard-wired. R20. -/
def Obligations.RegisterFileIsEightPlainRegisters : Prop :=
  ∀ (s : State) (r : Fin 8) (v : Byte), s.x.toList.length = 8 ∧ (s.setReg r v).reg r = v ∧
    sameRegistersBut [r] s (s.setReg r v) ∧ sameMemory s (s.setReg r v) ∧ (s.setReg r v).fl = s.fl ∧
    (s.setReg r v).pc = s.pc ∧ (s.setReg r v).run = s.run ∧ (s.setReg r v).out = s.out

/-- MemRead: the byte below 256, AddressFault from 256 on. R53 and R161. That the record also holds pc is the spec's
decision D12 (log entry 11). -/
def Obligations.MemReadReturnsByteOrFaults : Prop :=
  ∀ (s : State) (addr : Nat), (addr < 256 → memRead s addr = .ok (s.byte addr)) ∧
    (256 ≤ addr → memRead s addr = .error (.fault (.addressFault addr s.pc)))

/-- MemWrite: one cell changes and nothing else; AddressFault from 256 on (the spec's decision D8). R54. The bound
check is the spec's decision D8 (log entry 7); that the record also holds pc is R161 and the decision D12 (log
entry 11). -/
def Obligations.MemWriteStoresOneCell : Prop :=
  ∀ (s : State) (addr : Nat) (v : Byte),
    (addr < 256 → ∃ t, memWrite s addr v = .ok t ∧ t.byte addr = v ∧ (∀ c, c ≠ addr → t.byte c = s.byte c) ∧
      t.x = s.x ∧ t.fl = s.fl ∧ t.pc = s.pc ∧ t.run = s.run ∧ t.out = s.out) ∧
    (256 ≤ addr → memWrite s addr v = .error (.fault (.addressFault addr s.pc)))

/-- 256 zero-initialized cells that code, data and stack share. R37. PUSH R7 and POP R7, whose values are the spec's
decision D24, are in PushStoresBelowTheStackPointer and PopLoadsFromTheStackPointer. -/
def Obligations.OneMemoryForCodeDataAndStack : Prop :=
  (∀ addr, addr < 256 → memRead State.reset addr = .ok 0) ∧
  (∀ (s : State) addr, 256 ≤ addr → ∀ b, memRead s addr ≠ .ok b) ∧
  (∀ (s t : State) (v : Byte) (tr : Triple),
    (memWrite s s.pc v = .ok t → fetch t = .ok tr → tr.op = v) ∧
    (memWrite s (s.pc + 1) v = .ok t → fetch t = .ok tr → tr.opA = v) ∧
    (memWrite s (s.pc + 2) v = .ok t → fetch t = .ok tr → tr.opB = v)) ∧
  (∀ (s t : State) (v : Byte) (aa : BitVec 2), memWrite s s.sp.toNat v = .ok t →
    (∃ u, exec (.ret aa) t = .next u ∧ u.pc = v.toNat) ∧
    ∀ r : Fin 8, r ≠ 7 → ∃ u, exec (.pop aa (regByte r)) t = .next u ∧ u.reg r = v) ∧
  (∀ (s t : State) (aa : BitVec 2) (r : Fin 8) (tr : Triple), r ≠ 7 → exec (.push aa (regByte r)) s = .next t →
    t.safe → fetch t = .ok tr →
    (t.sp.toNat = t.pc → tr.op = s.reg r) ∧ (t.sp.toNat = t.pc + 1 → tr.opA = s.reg r) ∧
    (t.sp.toNat = t.pc + 2 → tr.opB = s.reg r)) ∧
  ∀ (s t : State) (aa : BitVec 2) (r : Fin 8) (tr : Triple), s.pc ≤ 253 → exec (.call aa (regByte r)) s = .next t →
    fetch t = .ok tr →
    (t.sp.toNat = t.pc → tr.op.toNat = s.pc + 2) ∧ (t.sp.toNat = t.pc + 1 → tr.opA.toNat = s.pc + 2) ∧
    (t.sp.toNat = t.pc + 2 → tr.opB.toNat = s.pc + 2)

/-- Decoding the encoding of any instruction gives it back, whatever bytes follow. The opcode values are the spec's
decision D1 (log entry 1), FULL8 its decision D22 (log entry 6). -/
def Obligations.DecodeOfEncodeIsTheInstruction : Prop :=
  (∀ (i : Instr) (rest : List Byte), 3 ≤ (encode i ++ rest).length → decode (encode i ++ rest) = .ok i) ∧
  ∀ (k : Config.DispatchKey) (i : Instr) (op opA opB : Byte), i.dispatches k = true →
    encode i <+: [op, opA, opB] → decodeTriple k op opA opB = .ok i

/-- A triple that decodes begins with the encoding of the instruction it decodes to. FULL8 is the spec's decision D22
(log entry 6). -/
def Obligations.DecodedTripleBeginsWithTheEncoding : Prop :=
  ∀ (k : Config.DispatchKey) (op opA opB : Byte) (i : Instr), decodeTriple k op opA opB = .ok i →
    encode i <+: [op, opA, opB] ∧ i.dispatches k = true

/-- The spec's canonical words decode to their instructions (opcode values by the spec's decision D1). The opcode
values are the spec's decision D1 (log entry 1). -/
def Obligations.SpecWordsDecode : Prop :=
  decode [0b10000010, 0x00, 0x05] = .ok (.ldi 2 0 5) ∧ decode [0b01000111, 0x03, 0xFF] = .ok (.prn 1 3) ∧
  decode [0b00000001, 0x00, 0x00] = .ok (.hlt 0) ∧ decode [0b10100010, 0x01, 0x02] = .ok (.mul 2 1 2) ∧
  decode [0b10100000, 0x06, 0x07] = .ok (.add 2 6 7) ∧ decode [0b10100111, 0x02, 0x05] = .ok (.cmp 2 2 5) ∧
  decode [0b01000101, 0x04, 0x00] = .ok (.push 1 4) ∧ decode [0b01000110, 0x07, 0x00] = .ok (.pop 1 7) ∧
  decode [0b01010000, 0x01, 0x00] = .ok (.call 1 1) ∧ decode [0b00010001, 0x00, 0x00] = .ok (.ret 0) ∧
  decode [0b10000100, 0x00, 0x02] = .ok (.st 2 0 2) ∧ decode [0x02, 0x03, 0x09] = .ok (.ldi 0 3 9) ∧
  decode [0xC2, 0x03, 0x09] = .ok (.ldi 3 3 9)

/-- PRN, PUSH, POP and CALL ignore opB; HLT and RET ignore both operand bytes. Identifiers by the spec's decision D1
(log entry 1). -/
def Obligations.IgnoredOperandBytesAreNeverChecked : Prop :=
  ∀ (aa : BitVec 2) (a b a' b' : Byte),
    (∀ id ∈ ([0x07, 0x05, 0x06, 0x10] : List (BitVec 6)), ∃ i, decode [opByte aa id, a, b] = .ok i ∧
      decode [opByte aa id, a, b'] = .ok i) ∧
    (∀ id ∈ ([0x01, 0x11] : List (BitVec 6)), ∃ i, decode [opByte aa id, a, b] = .ok i ∧
      decode [opByte aa id, a', b'] = .ok i)

/-- The opcode byte alone, by its bits 7:6, tells an instruction's length. R73. -/
def Obligations.LengthComesFromTheOpcodeByteAlone : Prop :=
  ∀ (op a b : Byte) (i : Instr), decode [op, a, b] = .ok i → i.aa = op.extractLsb' 6 2 ∧
    ∀ a' b', ∃ i', decode [op, a', b'] = .ok i' ∧ i'.aa = op.extractLsb' 6 2 ∧ i'.setsPc = i.setsPc

/-- The opcode bytes that decode to nothing are those of the 53 identifiers R78 lists. The list follows from the
opcode values, the spec's decision D1 (log entry 1). -/
def Obligations.UnknownIdentifiersAreExactlyThe53 : Prop :=
  ∀ op a b : Byte, decode [op, a, b] = .error (.unknownInstruction op) ↔
    (let id := op.toNat % 64
     id = 0x00 ∨ id = 0x03 ∨ (0x08 ≤ id ∧ id ≤ 0x0F) ∨ (0x12 ≤ id ∧ id ≤ 0x1F) ∨ id = 0x21 ∨
       (0x23 ≤ id ∧ id ≤ 0x26) ∨ 0x28 ≤ id)

/-- An alias encoding does what the canonical one does; only the advance differs. Aliases run because of DISPATCH_KEY
= LOW6, the spec's decision D22 (log entry 6). -/
def Obligations.AliasEncodingsRunTheSameHandler : Prop :=
  ∀ (i : Instr) (aa : BitVec 2) (s t : State), s.run = .running → exec i s = .next t →
    ∃ u, exec (i.withAA aa) s = .next u ∧ u = { t with pc := u.pc } ∧
      ((i.setsPc = true ∨ ∃ f, t.run = .faulted f) → u = t) ∧
      (i.setsPc = false → t.safe → u.pc = s.pc + 1 + aa.toNat)

/-- A step of a running engine is exec of the instruction at pc. exec holds the whole of R107 after the decode. -/
def Obligations.StepRunsTheDecodedInstruction : Prop :=
  ∀ (s : State) (i : Instr), s.run = .running → s.pc ≤ 253 →
    decode [s.byte s.pc, s.byte (s.pc + 1), s.byte (s.pc + 2)] = .ok i → step s = exec i s

/-- Decode and dispatch: the table's handler for op[5:0], else UnknownInstruction(op, pc). R103. FULL8 is the
parameter value of the spec's decision D22 (log entry 6). -/
def Obligations.DispatchLooksUpTheLowSixBits : Prop :=
  (∀ s : State, s.run = .running → s.pc ≤ 253 →
    (∀ r ∈ dispatchTable, r.id = (s.byte s.pc).extractLsb' 0 6 →
      step s = exec (r.build ((s.byte s.pc).extractLsb' 6 2) (s.byte (s.pc + 1)) (s.byte (s.pc + 2))) s) ∧
    ((∀ r ∈ dispatchTable, r.id ≠ (s.byte s.pc).extractLsb' 0 6) →
      step s = .next { s with run := .faulted (.unknownInstruction (s.byte s.pc) s.pc) })) ∧
  ∀ op a b : Byte,
    (∀ r ∈ dispatchTable, op = r.canonicalAA ++ r.id →
      decodeTriple .full8 op a b = .ok (r.build (op.extractLsb' 6 2) a b)) ∧
    ((∀ r ∈ dispatchTable, op ≠ r.canonicalAA ++ r.id) →
      decodeTriple .full8 op a b = .error (.unknownInstruction op))

/-- From pc 254 on the fetch raises AddressFault with the first out-of-range address (the spec's decision D9).
Faulting on unused operand bytes is the spec's decision D9 (log entry 8), the pc in the record R161 and its
decision D12 (log entry 11), that nothing but run changes R109, R165 and its decision D11 (log entry 10). -/
def Obligations.FetchPastTheEndFaults : Prop :=
  ∀ s : State, s.run = .running →
    ((s.pc = 254 ∨ s.pc = 255) → step s = .next { s with run := .faulted (.addressFault 256 s.pc) }) ∧
    (256 ≤ s.pc → step s = .next { s with run := .faulted (.addressFault s.pc s.pc) })

/-- A running engine always performs a cycle; one that is not running never does. R100. -/
def Obligations.EveryCycleOfARunningEngineEnds : Prop :=
  ∀ s : State, (s.run = .running → ∃ t, step s = .next t ∧
      (t.run = .running ∨ t.run = .halted ∨ ∃ f, t.run = .faulted f)) ∧
    (s.run ≠ .running → ∀ t, step s ≠ .next t)

/-- No step from Halted or Faulted; the step says so by engineHalted and engineFaulted (the model's own, log entry
23). R108. The two answers of the step are the model's own choice (log entry 23); the rule only says that there is
no step. -/
def Obligations.HaltedAndFaultedAreTerminal : Prop :=
  ∀ s : State, (s.run = .halted → step s = .fault .engineHalted) ∧
    (∀ f, s.run = .faulted f → step s = .fault (.engineFaulted f)) ∧
    (s.run ≠ .running → ∀ n t, Sys2Proof.core.run (n + 1) s ≠ .next t)

/-- A faulting cycle changes nothing but run (the spec's decision D11). The spec's decision D11 (log entry 10). -/
def Obligations.FaultsArePrecise : Prop :=
  ∀ (s t : State) (f : FaultRecord), step s = .next t → t.run = .faulted f → t = { s with run := .faulted f }

/-- A step faults exactly with the first fault of R166's order (items 3 and 4 by the spec's decision D20). Register-
index faults are the spec's decision D6 (log entry 4), the records its decision D12 (log entry 11), the order its
decision D20 (log entry 12), a fetch past the end its decision D9 (log entry 8), PUSH at SP = 0 its decision D23
(log entry 13). -/
def Obligations.FirstFaultInPriorityOrder : Prop :=
  ∀ s t : State, step s = .next t → ∀ f, t.run = .faulted f ↔ firstFault s = some f

/-- A step halts exactly when the instruction at pc is HALT. Identifier by the spec's decision D1 (log entry 1), no
HALT from pc 254 on by its decision D9 (log entry 8). -/
def Obligations.OnlyHaltHalts : Prop :=
  ∀ s t : State, step s = .next t →
    (t.run = .halted ↔ s.pc ≤ 253 ∧ (s.byte s.pc).extractLsb' 0 6 = 0x01)

/-- LDI completes: the register holds opB, everything else but pc is unchanged. R120 with a legal register:
"register[opA] = opB". -/
def Obligations.LdiLoadsTheImmediate : Prop :=
  ∀ (aa : BitVec 2) (r : Fin 8) (imm : Byte) (s : State), ∃ t, exec (.ldi aa (regByte r) imm) s = .next t ∧
    t.reg r = imm ∧ sameRegistersBut [r] s t ∧ sameMemory s t ∧ t.fl = s.fl ∧ t.run = s.run ∧ t.out = s.out ∧
    t.pc = s.pc + 1 + aa.toNat

/-- PRN completes: out gains the register's value at its end, everything else but pc is unchanged. R121 with a legal
register. That the port carries the 8-bit value is the spec's decision D14 (log entry 17). -/
def Obligations.PrnEmitsTheRegister : Prop :=
  ∀ (aa : BitVec 2) (r : Fin 8) (s : State), ∃ t, exec (.prn aa (regByte r)) s = .next t ∧
    t.out = s.out ++ [s.reg r] ∧ sameRegistersBut [] s t ∧ sameMemory s t ∧ t.fl = s.fl ∧ t.run = s.run ∧
    t.pc = s.pc + 1 + aa.toNat

/-- ST completes: one cell, at the address in the second register, takes the first register's value. R122 with legal
registers: "write register[opA] into memory at address register[opB]". -/
def Obligations.StStoresTheRegister : Prop :=
  ∀ (aa : BitVec 2) (ra rb : Fin 8) (s : State), ∃ t, exec (.st aa (regByte ra) (regByte rb)) s = .next t ∧
    t.byte (s.reg rb).toNat = s.reg ra ∧ (∀ c, c ≠ (s.reg rb).toNat → t.byte c = s.byte c) ∧
    sameRegistersBut [] s t ∧ t.fl = s.fl ∧ t.run = s.run ∧ t.out = s.out ∧ t.pc = s.pc + 1 + aa.toNat

/-- ADD and MUL complete: exact sum or product modulo 256, no flag, nothing else but pc. R130, R131, R133 with legal
registers; the two's-complement clause is an inference R133 marks as its own. -/
def Obligations.AddAndMulWrapAt256 : Prop :=
  ∀ (aa : BitVec 2) (ra rb : Fin 8) (s : State),
    (∃ t, exec (.add aa (regByte ra) (regByte rb)) s = .next t ∧
      (t.reg ra).toNat = ((s.reg ra).toNat + (s.reg rb).toNat) % 256 ∧
      t.reg ra = BitVec.ofInt 8 ((s.reg ra).toInt + (s.reg rb).toInt) ∧
      sameRegistersBut [ra] s t ∧ sameMemory s t ∧ t.fl = s.fl ∧ t.run = s.run ∧ t.out = s.out ∧ t.pc = s.pc + 1 + aa.toNat) ∧
    ∃ t, exec (.mul aa (regByte ra) (regByte rb)) s = .next t ∧
      (t.reg ra).toNat = ((s.reg ra).toNat * (s.reg rb).toNat) % 256 ∧
      t.reg ra = BitVec.ofInt 8 ((s.reg ra).toInt * (s.reg rb).toInt) ∧
      sameRegistersBut [ra] s t ∧ sameMemory s t ∧ t.fl = s.fl ∧ t.run = s.run ∧ t.out = s.out ∧ t.pc = s.pc + 1 + aa.toNat

/-- CMP completes: E, G and L are exactly equal, greater and less (unsigned); nothing else but pc. R132 with legal
registers. That bits 7:3 are not written is the spec's decision D5 (log entry 2). -/
def Obligations.CmpSetsExactlyOneFlag : Prop :=
  ∀ (aa : BitVec 2) (ra rb : Fin 8) (s : State), ∃ t, exec (.cmp aa (regByte ra) (regByte rb)) s = .next t ∧
    (flagE t.fl = true ↔ (s.reg ra).toNat = (s.reg rb).toNat) ∧
    (flagG t.fl = true ↔ (s.reg rb).toNat < (s.reg ra).toNat) ∧
    (flagL t.fl = true ↔ (s.reg ra).toNat < (s.reg rb).toNat) ∧
    (∀ n, 3 ≤ n → t.fl.getLsbD n = s.fl.getLsbD n) ∧
    ((∀ n, 3 ≤ n → s.fl.getLsbD n = false) → t.fl = 0x01 ∨ t.fl = 0x02 ∨ t.fl = 0x04) ∧
    sameRegistersBut [] s t ∧ sameMemory s t ∧ t.run = s.run ∧ t.out = s.out ∧ t.pc = s.pc + 1 + aa.toNat

/-- PUSH completes when SP is above EM: SP moves down one and the cell there takes the value (R7 by the spec's
decision D24). R140 with a legal register. PUSH R7 is the spec's decision D24 (log entry 14), the unbounded check
its decision D23 (log entry 13). -/
def Obligations.PushStoresBelowTheStackPointer : Prop :=
  ∀ (aa : BitVec 2) (r : Fin 8) (s : State), s.em.toNat < s.sp.toNat →
    ∃ t, exec (.push aa (regByte r)) s = .next t ∧ t.sp.toNat = s.sp.toNat - 1 ∧
      t.byte (s.sp - 1).toNat = (if r = 7 then s.sp - 1 else s.reg r) ∧
      (∀ c, c ≠ (s.sp - 1).toNat → t.byte c = s.byte c) ∧ sameRegistersBut [7] s t ∧
      t.fl = s.fl ∧ t.run = s.run ∧ t.out = s.out ∧ t.pc = s.pc + 1 + aa.toNat

/-- PUSH with SP not above EM raises StackOverflow and changes nothing else (the spec's decisions D12, D23). What the
record holds is the spec's decision D12 (log entry 11); that nothing but run changes its decision D11 (log entry
10); that SP = 0 always overflows its decision D23 (log entry 13). -/
def Obligations.PushOverflowsAtTheEndMarker : Prop :=
  ∀ (aa : BitVec 2) (r : Fin 8) (s : State), s.sp.toNat ≤ s.em.toNat →
    exec (.push aa (regByte r)) s = .next { s with run := .faulted (.stackOverflow s.pc s.sp s.em) }

/-- PUSH never changes a byte below EM nor (by the spec's decision D23) the one at 255. R140: "The lowest address PUSH
can write is EM", "the new SP is in EM..254". That 255 is never written, since SP = 0 overflows, is the spec's
decision D23 (log entry 13); that a PUSH that faults leaves memory as it was is R109 and its decision D11 (log
entry 10). -/
def Obligations.PushNeverStoresBelowTheEndMarker : Prop :=
  ∀ (aa : BitVec 2) (a : Byte) (s t : State), exec (.push aa a) s = .next t →
    ∀ c, (c < s.em.toNat ∨ c = 255) → t.byte c = s.byte c

/-- POP completes: the register takes mem[SP], SP moves up only below 0xF4 (R7 by the spec's decision D24). R141 with
a legal register. POP R7 is the spec's decision D24 (log entry 14). -/
def Obligations.PopLoadsFromTheStackPointer : Prop :=
  ∀ (aa : BitVec 2) (r : Fin 8) (s : State), ∃ t, exec (.pop aa (regByte r)) s = .next t ∧
    (r ≠ 7 → t.reg r = s.byte s.sp.toNat ∧ t.sp.toNat = if s.sp.toNat < 0xF4 then s.sp.toNat + 1 else s.sp.toNat) ∧
    (r = 7 → t.sp.toNat =
      if (s.byte s.sp.toNat).toNat < 0xF4 then (s.byte s.sp.toNat).toNat + 1 else (s.byte s.sp.toNat).toNat) ∧
    sameRegistersBut [r, 7] s t ∧ sameMemory s t ∧ t.fl = s.fl ∧ t.run = s.run ∧ t.out = s.out ∧ t.pc = s.pc + 1 + aa.toNat

/-- HLT completes: run becomes Halted and pc advances (the spec's decision D10), nothing else changes. That pc
advances is the spec's decision D10 (log entry 9). -/
def Obligations.HltHaltsAfterTheAdvance : Prop :=
  ∀ (aa : BitVec 2) (s : State), ∃ t, exec (.hlt aa) s = .next t ∧ t.run = .halted ∧
    t.pc = s.pc + 1 + aa.toNat ∧ sameRegistersBut [] s t ∧ sameMemory s t ∧ t.fl = s.fl ∧ t.out = s.out

/-- CALL completes: SP moves down modulo 256, the cell there holds pc + 2, pc is the register (D7, D24; from pc 254 on
the model's own, log entry 19). R152 with a legal register. The wrap is the spec's decision D7 (log entry 5), CALL
R7 its decision D24 (log entry 14). From pc 254 on, where no cycle executes and R152 gives no value, the low byte
of pc + 2 is the model's own choice (log entry 19). -/
def Obligations.CallPushesTheReturnAddressAndJumps : Prop :=
  ∀ (aa : BitVec 2) (r : Fin 8) (s : State), ∃ t, exec (.call aa (regByte r)) s = .next t ∧
    t.sp.toNat = (s.sp.toNat + 255) % 256 ∧ t.byte (s.sp - 1).toNat = BitVec.ofNat 8 (s.pc + 2) ∧
    (s.pc ≤ 253 → (t.byte (s.sp - 1).toNat).toNat = s.pc + 2) ∧
    (∀ c, c ≠ (s.sp - 1).toNat → t.byte c = s.byte c) ∧ t.pc = (if r = 7 then s.sp - 1 else s.reg r).toNat ∧
    sameRegistersBut [7] s t ∧ t.fl = s.fl ∧ t.run = s.run ∧ t.out = s.out

/-- RET completes: pc is mem[SP] and SP moves up modulo 256 (the spec's decision D7), nothing else changes. The wrap
is the spec's decision D7 (log entry 5). -/
def Obligations.RetPopsTheProgramCounter : Prop :=
  ∀ (aa : BitVec 2) (s : State), ∃ t, exec (.ret aa) s = .next t ∧ t.pc = (s.byte s.sp.toNat).toNat ∧
    t.sp.toNat = (s.sp.toNat + 1) % 256 ∧ sameRegistersBut [7] s t ∧ sameMemory s t ∧ t.fl = s.fl ∧ t.run = s.run ∧ t.out = s.out

/-- opA of 8 or more raises RegisterIndexFault in the nine instructions that use it as a register (the spec's decision
D6). The spec's decision D6 (log entry 4). The record is its decision D12 (log entry 11), that nothing but run
changes its decision D11 (log entry 10). For PUSH with SP at most EM, that this fault comes before StackOverflow
is R166 and its decision D20 (log entry 12). -/
def Obligations.IllegalFirstRegisterOperandFaults : Prop :=
  ∀ (aa : BitVec 2) (a b : Byte) (s : State), 8 ≤ a.toNat →
    ∀ i ∈ [Instr.ldi aa a b, .prn aa a, .st aa a b, .add aa a b, .mul aa a b, .cmp aa a b, .push aa a, .pop aa a,
        .call aa a],
      exec i s = .next { s with run := .faulted (.registerIndexFault s.pc a) }

/-- With a legal opA, opB of 8 or more raises RegisterIndexFault in ST, ADD, MUL and CMP (the spec's decision D6). The
spec's decision D6 (log entry 4). The record is its decision D12 (log entry 11), that nothing but run changes its
decision D11 (log entry 10). -/
def Obligations.IllegalSecondRegisterOperandFaults : Prop :=
  ∀ (aa : BitVec 2) (r : Fin 8) (b : Byte) (s : State), 8 ≤ b.toNat →
    ∀ i ∈ [Instr.st aa (regByte r) b, .add aa (regByte r) b, .mul aa (regByte r) b, .cmp aa (regByte r) b],
      exec i s = .next { s with run := .faulted (.registerIndexFault s.pc b) }

/-- SP_EDGE = refuse refuses CALL at SP = 0 and RET at SP = 0xFF, and agrees with wrap everywhere else. The parameter
of the spec's decision D7 (log entry 5). -/
def Obligations.SpEdgeRefuseDiffersOnlyAtTheEdge : Prop :=
  spEdge = .wrap ∧ ∀ (r : Fin 8) (s : State),
    (s.sp = 0 → callHandler .refuse (regByte r) s = .error (.refuse .spBelowZero)) ∧
    (s.sp ≠ 0 → callHandler .refuse (regByte r) s = callHandler .wrap (regByte r) s) ∧
    (s.sp = 0xFF → retHandler .refuse s = .error (.refuse .spAboveMax)) ∧
    (s.sp ≠ 0xFF → retHandler .refuse s = retHandler .wrap s)

/-- No instruction writes a register that R25's table does not list for it. R25 (the table is an inference the rule
marks as its own), as registerWrites of Safety.lean. -/
def Obligations.RegisterWritesAreThoseOfTheAccessTable : Prop :=
  ∀ (i : Instr) (s t : State), exec i s = .next t → ∀ q, regByte q ∉ registerWrites i → t.reg q = s.reg q

/-- Only ST, PUSH and CALL store, and only the one byte R51 names. R51 (the table is an inference the rule marks as
its own), as storeAddress of Safety.lean. -/
def Obligations.MemoryWritesAreThoseOfTheAccessTable : Prop :=
  ∀ (i : Instr) (s t : State), exec i s = .next t → ∀ c, storeAddress s i ≠ some c → t.byte c = s.byte c

/-- A register R25 does not list among an instruction's reads cannot influence what it does. R25 (the table is an
inference the rule marks as its own), as registerReads of Safety.lean. -/
def Obligations.UnreadRegistersDoNotMatter : Prop :=
  ∀ (i : Instr) (s t : State) (q : Fin 8) (v : Byte), regByte q ∉ registerReads i → exec i s = .next t →
    ∃ u, exec i (s.setReg q v) = .next u ∧ u.fl = t.fl ∧ u.pc = t.pc ∧ u.mem = t.mem ∧ u.run = t.run ∧
      u.out = t.out ∧ sameRegistersBut [q] t u ∧ (u.reg q = t.reg q ∨ u.reg q = v)

/-- No step depends on FL or out. R34: "No instruction reads FL". -/
def Obligations.FlagsAndOutputAreNeverRead : Prop :=
  ∀ (s t : State) (fl' : Byte) (out' : List Byte), step s = .next t →
    ∃ u, step { s with fl := fl', out := out' } = .next u ∧ u.x = t.x ∧ u.pc = t.pc ∧ u.mem = t.mem ∧
      u.run = t.run ∧ (∃ vs, t.out = s.out ++ vs ∧ u.out = out' ++ vs) ∧
      ((t.fl = s.fl ∧ u.fl = fl') ∨ ∀ n, n < 3 → u.fl.getLsbD n = t.fl.getLsbD n)

/-- A step changes FL only for CMP and out only for PRN, which appends one value. Identifiers by the spec's decision
D1 (log entry 1). -/
def Obligations.OnlyCmpWritesFlagsOnlyPrnEmits : Prop :=
  ∀ s t : State, step s = .next t →
    ((s.byte s.pc).extractLsb' 0 6 ≠ 0x27 → t.fl = s.fl) ∧
    (t.out = s.out ∨ (s.byte s.pc).extractLsb' 0 6 = 0x07 ∧
      ∃ r, s.byte (s.pc + 1) = regByte r ∧ t.out = s.out ++ [s.reg r])

/-- pc moves only by the advance, CALL and RETURN, and is no register. R28. The amount of the advance is R104; that
HLT advances is R106 and the spec's decision D10 (log entry 9); that a fault leaves pc is R109 and its decision
D11 (log entry 10). -/
def Obligations.PcMovesOnlyByAdvanceCallAndReturn : Prop :=
  (∀ (s : State) (r : Fin 8) (v : Byte), (s.setReg r v).pc = s.pc) ∧
  ∀ (i : Instr) (s t : State), s.run = .running → exec i s = .next t →
    ((∃ f, t.run = .faulted f) → t.pc = s.pc) ∧
    (t.safe → (i.setsPc = false → t.pc = s.pc + 1 + i.aa.toNat) ∧ (i.setsPc = true → t.pc ≤ 255))

/-- An advance past 255 leaves pc at 256 or more, and the next fetch raises AddressFault. R30. What the record holds
is R161 and the spec's decision D12 (log entry 11); that nothing but run changes is R165 and its decision D11 (log
entry 10); that HLT advances is its decision D10 (log entry 9). -/
def Obligations.PcDoesNotWrap : Prop :=
  ∀ (i : Instr) (s t : State), s.run = .running → exec i s = .next t → i.setsPc = false →
    t.safe → 256 ≤ s.pc + 1 + i.aa.toNat →
    t.pc = s.pc + 1 + i.aa.toNat ∧ 256 ≤ t.pc ∧
      (t.run = .running → step t = .next { t with run := .faulted (.addressFault t.pc t.pc) })

/-- PUSH Rr then POP Rr restores every register, SP included. R143, an inference the rule marks as its own; with R7 it
rests on the spec's decision D24 (log entry 14), past pc 253 on the model's own choice (log entry 19). -/
def Obligations.PushThenPopRestores : Prop :=
  ∀ (aa aa' : BitVec 2) (r : Fin 8) (s : State), s.em.toNat < s.sp.toNat → s.sp.toNat ≤ 0xF4 →
    ∃ t u, exec (.push aa (regByte r)) s = .next t ∧ exec (.pop aa' (regByte r)) t = .next u ∧
      sameRegistersBut [] s u ∧ u.fl = s.fl ∧ u.out = s.out ∧ u.run = s.run

/-- N pushes then N pops return the values in reverse order and leave SP where it started. R143, an inference the rule
marks as its own; a push of R7 rests on the spec's decision D24 (log entry 14). The sequence is one of exec, not
of fetched steps: that it goes on past pc 253 is the model's own choice (log entry 19). -/
def Obligations.PushesThenPopsReverse : Prop :=
  ∀ (ps qs : List (BitVec 2 × Fin 8)) (s : State), s.run = .running → qs.length = ps.length →
    (∀ q ∈ qs, q.2 ≠ 7) → s.em.toNat + ps.length ≤ s.sp.toNat → s.sp.toNat ≤ 0xF4 →
    ∃ u, execAll (ps.map (fun p => .push p.1 (regByte p.2)) ++ qs.map (fun q => .pop q.1 (regByte q.2))) s = .next u ∧
      u.run = .running ∧ u.sp = s.sp ∧ sameRegistersBut (qs.map Prod.snd) s u ∧
      ((qs.map Prod.snd).Nodup → ∀ (k : Nat) (p q : BitVec 2 × Fin 8), ps[k]? = some p → qs.reverse[k]? = some q →
        u.reg q.2 = if p.2 = 7 then s.sp - BitVec.ofNat 8 (k + 1) else s.reg p.2)

/-- Exactly SP - EM pushes succeed, from every running state; after a load these are 0xF4 - L. R140, and R192, an
inference the rule marks as its own. That SP = 0 overflows is the spec's decision D23 (log entry 13), the record
its decision D12 (log entry 11), the image limit its decision D18 (log entry 15). The sequence is one of exec, not
of fetched steps: that it goes on past pc 253 is the model's own choice (log entry 19). -/
def Obligations.PushCapacity : Prop :=
  (∀ (ps : List (BitVec 2 × Fin 8)) (s : State), s.run = .running →
    ∃ t, execAll (ps.map (fun p => .push p.1 (regByte p.2))) s = .next t ∧ sameRegistersBut [7] s t ∧
      (ps.length ≤ s.sp.toNat - s.em.toNat → t.run = .running ∧ t.sp.toNat = s.sp.toNat - ps.length) ∧
      (s.sp.toNat - s.em.toNat < ps.length → (∃ pc, t.run = .faulted (.stackOverflow pc t.sp t.em)) ∧
        t.sp.toNat = min s.sp.toNat s.em.toNat)) ∧
  ∀ (image : List Byte) (s : State), load image = .ok s →
    s.run = .running ∧ s.sp.toNat - s.em.toNat = 0xF4 - image.length

/-- A RET that finds SP and mem[SP] as CALL left them resumes at the CALL's address + 2, SP restored. R155, an
inference the rule marks as its own; SP = 0 rests on the spec's decision D7 (log entry 5), CALL R7 on its decision
D24 (log entry 14), a RET past pc 253 on the model's own choice (log entry 19). -/
def Obligations.CallThenReturnResumes : Prop :=
  ∀ (aa aa' : BitVec 2) (r : Fin 8) (s t u : State), s.pc ≤ 253 → exec (.call aa (regByte r)) s = .next t →
    u.sp = t.sp → u.byte u.sp.toNat = t.byte t.sp.toNat →
    exec (.ret aa') u = .next { u.setReg 7 s.sp with pc := s.pc + 2 }

/-- A store is seen by the next fetch, and does not change the operands of the storing instruction. R64, an inference
the rule marks as its own. -/
def Obligations.StoreIsSeenByTheNextFetch : Prop :=
  ∀ (s t : State) (aa : BitVec 2) (ra rb : Fin 8), s.run = .running → s.pc ≤ 253 →
    decode [s.byte s.pc, s.byte (s.pc + 1), s.byte (s.pc + 2)] = .ok (.st aa (regByte ra) (regByte rb)) →
    step s = .next t →
    let seen := fun c => if c = (s.reg rb).toNat then s.reg ra else s.byte c
    t.pc = s.pc + 1 + aa.toNat ∧ (∀ c, t.byte c = seen c) ∧
      ∀ tr, fetch t = .ok tr → tr = ⟨seen t.pc, seen (t.pc + 1), seen (t.pc + 2)⟩

/-- A run under fuel that ended ended for good; more fuel answers the same; no run is refused. R111 and R178. -/
def Obligations.FuelIsNoEndOfARun : Prop :=
  ∀ (n : Nat) (s t : State), (runFuel n s = .ended t → t.run ≠ .running ∧ ∀ m, n ≤ m → runFuel m s = .ended t) ∧
    (runFuel n s = .outOfFuel t → t.run = .running) ∧ ∀ r, runFuel n s ≠ .refused r

/-- Status codes 0 to 4; exit code 0 exactly for Halted, and distinct for the four kinds of fault. The status codes
are the spec's decision D13 (log entry 18). -/
def Obligations.StatusAndExitCodesTellTheEndsApart : Prop :=
  (Run.running.statusCode = none ∧ Run.halted.statusCode = some 0 ∧
    (∀ a p, (Run.faulted (.addressFault a p)).statusCode = some 1) ∧
    (∀ o p, (Run.faulted (.unknownInstruction o p)).statusCode = some 2) ∧
    (∀ p sp em, (Run.faulted (.stackOverflow p sp em)).statusCode = some 3) ∧
    ∀ p x, (Run.faulted (.registerIndexFault p x)).statusCode = some 4) ∧
  ∀ (c : Config.ExitCodes) (r r' : Run), (r.exitCode c = some 0 ↔ r = .halted) ∧
    (r.exitCode c = none ↔ r = .running) ∧ (r.exitCode c = r'.exitCode c ↔ r.statusCode = r'.statusCode)

/-- The trace snapshot: pc, the three bytes at pc, the eight registers (the spec's decision D15). The sampling point
is the spec's decision D15 (log entry 16). -/
def Obligations.TraceShowsTheStateACycleStartsFrom : Prop :=
  (∀ s : State, s.pc ≤ 253 → trace s =
    { pc := s.pc, bytes := [some (s.byte s.pc), some (s.byte (s.pc + 1)), some (s.byte (s.pc + 2))],
      regs := [s.reg 0, s.reg 1, s.reg 2, s.reg 3, s.reg 4, s.reg 5, s.reg 6, s.reg 7] }) ∧
  (∀ (s : State) (tr : Triple), fetch s = .ok tr → (trace s).bytes = [some tr.op, some tr.opA, some tr.opB]) ∧
  ∀ (s : State) (fl : Byte) (out : List Byte) (run : Run),
    trace { s with fl := fl, out := out, run := run } = trace s

/-- A table word placed by withFetchWord is what the next step runs (the model's own, log entry 21). withFetchWord is
the model's own (log entry 21). -/
def Obligations.FetchWordIsRunNext : Prop :=
  ∀ (s : State) (nbits w : Nat) (i : Instr), decodeTableWord nbits w = some i →
    step (s.withFetchWord nbits w) = exec i (s.withFetchWord nbits w)

/-- The invariant holds at reset and after every load (canonical memory is the model's own, log entry 24). Inv is in
Safety.lean. R190, R29, R33. FL and pc at reset are the spec's decisions D5 and D4 (log entries 2 and 3). -/
def Obligations.ResetAndLoadMeetTheInvariant : Prop :=
  Inv State.reset ∧ ∀ image t, load image = .ok t → Inv t

/-- Every step keeps: canonical memory (the model's own, log entry 24), pc at most 257, FL legal, a fault record that
describes the state. R29, R33, R34 and R161 to R165; FL's other bits by the spec's decision D5 (log entry 2), the
records by its decision D12 (log entry 11), their causes also by its decisions D6, D9 and D23 (log entries 4, 8,
13), that they describe the state after the cycle by its decision D11 (log entry 10). -/
def Obligations.StepKeepsTheInvariant : Prop :=
  ∀ s t : State, Inv s → step s = .next t → Inv t
end

