-- ==== Sys2Proof/Laws/Decode.lean ====
section
/-! SUPPORT. The fields of an opcode byte that is put together from its fields (R71), and what the decoder answers. -/

namespace Sys2Proof

@[simp] theorem opId_opByte (aa : BitVec 2) (id : BitVec 6) : opId (opByte aa id) = id := by
  revert aa id; decide

@[simp] theorem opAA_opByte (aa : BitVec 2) (id : BitVec 6) : opAA (opByte aa id) = aa := by
  revert aa id; decide

/-- The C bit lies inside the identifier (R71). -/
@[simp] theorem opSetsPc_opByte (aa : BitVec 2) (id : BitVec 6) : opSetsPc (opByte aa id) = id.getLsbD 4 := by
  revert aa id; decide

/-- An opcode byte is its two fields. -/
@[simp] theorem opByte_opAA_opId (op : Byte) : opByte (opAA op) (opId op) = op := by
  revert op; decide

/-- Under `LOW6` the selected row depends on the identifier alone (R79). -/
theorem find_low6_congr {op op' : Byte} (h : opId op = opId op') :
    dispatchTable.find? (Row.selects .low6 op) = dispatchTable.find? (Row.selects .low6 op') := by
  have : Row.selects .low6 op = Row.selects .low6 op' := by
    funext r
    simp [Row.selects, h]
  rw [this]

/-- The row a table lookup finds, in terms of the lookup. -/
theorem decodeTriple_of_find {k : Config.DispatchKey} {op : Byte} {r : Row}
    (h : dispatchTable.find? (Row.selects k op) = some r) (opA opB : Byte) :
    decodeTriple k op opA opB = .ok (r.build (opAA op) opA opB) := by
  simp [decodeTriple, h]

/-- A triple decodes, or its opcode byte is unknown; there is no third answer. -/
theorem decodeTriple_cases (k : Config.DispatchKey) (op opA opB : Byte) :
    (∃ r ∈ dispatchTable, r.selects k op ∧ decodeTriple k op opA opB = .ok (r.build (opAA op) opA opB)) ∨
      ((∀ r ∈ dispatchTable, ¬ r.selects k op) ∧ decodeTriple k op opA opB = .error (.unknownInstruction op)) := by
  unfold decodeTriple
  cases h : dispatchTable.find? (Row.selects k op) with
  | some r => exact .inl ⟨r, List.mem_of_find?_eq_some h, List.find?_some h, rfl⟩
  | none => exact .inr ⟨fun r hr => by simpa using List.find?_eq_none.1 h r hr, rfl⟩

/-- The decoder on three or more bytes. -/
theorem decode_cons (op opA opB : Byte) (rest : List Byte) :
    decode (op :: opA :: opB :: rest) = decodeTriple dispatchKey op opA opB := rfl

/-- A list that decodes is a triple, with whatever follows it. -/
theorem decode_eq_ok {bs : List Byte} {i : Instr} (h : decode bs = .ok i) :
    ∃ op opA opB rest, bs = op :: opA :: opB :: rest ∧ decodeTriple dispatchKey op opA opB = .ok i := by
  match bs, h with
  | op :: opA :: opB :: rest, h => exact ⟨op, opA, opB, rest, rfl, h⟩

/-! ## The rows of the table -/

/-- No two rows of the table have the same identifier (R77). -/
theorem dispatchTable_ids_nodup : (dispatchTable.map Row.id).Nodup := by decide

/-- The row with the opcode byte's identifier is the one the lookup finds under `LOW6`. -/
theorem find_low6_of_mem {r : Row} (hr : r ∈ dispatchTable) {op : Byte} (h : opId op = r.id) :
    dispatchTable.find? (Row.selects .low6 op) = some r := by
  have key : ∀ l : List Row, (l.map Row.id).Nodup → r ∈ l → l.find? (Row.selects .low6 op) = some r := by
    intro l
    induction l with
    | nil => intro _ hm; cases hm
    | cons d l ih =>
      intro hn hm
      rw [List.map_cons, List.nodup_cons] at hn
      rcases List.mem_cons.1 hm with rfl | hm
      · simp [Row.selects, h]
      · have hd : d.id ≠ r.id := fun hd => hn.1 (hd ▸ List.mem_map_of_mem (f := Row.id) hm)
        rw [List.find?_cons_of_neg, ih hn.2 hm]
        simpa [Row.selects, h] using Ne.symm hd
  exact key _ dispatchTable_ids_nodup hr

/-- Under `FULL8` the canonical byte's row is the one the lookup finds. -/
theorem find_full8_of_mem {r : Row} (hr : r ∈ dispatchTable) :
    dispatchTable.find? (Row.selects .full8 (opByte r.canonicalAA r.id)) = some r := by
  have h8 : ∀ d, Row.selects .full8 (opByte r.canonicalAA r.id) d = true → d.id = r.id := by
    intro d hd
    have := congrArg opId (eq_of_beq hd)
    simpa using this.symm
  cases hf : dispatchTable.find? (Row.selects .full8 (opByte r.canonicalAA r.id)) with
  | none => simpa [Row.selects] using List.find?_eq_none.1 hf r hr
  | some d =>
    have hd := List.mem_of_find?_eq_some hf
    have e := h8 d (List.find?_some hf)
    have f1 := find_low6_of_mem hd (op := opByte 0 r.id) (by simp [e])
    have f2 := find_low6_of_mem hr (op := opByte 0 r.id) (by simp)
    rw [← f1, f2]

/-- Every instruction is built by a row of the table: its identifier is the row's, and any operand bytes that begin with
its own build it. -/
theorem exists_row (i : Instr) : ∃ r ∈ dispatchTable, r.id = i.ident ∧ r.canonicalAA.toNat = i.operandCount ∧
    ∀ a b, i.operandBytes <+: [a, b] → r.build i.aa a b = i := by
  cases i with
  | ldi aa x y => exact ⟨_, List.mem_of_getElem? (i := 0) rfl, rfl, rfl, fun _ _ h => by obtain ⟨t, ht⟩ := h; cases ht; rfl⟩
  | prn aa x => exact ⟨_, List.mem_of_getElem? (i := 1) rfl, rfl, rfl, fun _ _ h => by obtain ⟨t, ht⟩ := h; cases ht; rfl⟩
  | hlt aa => exact ⟨_, List.mem_of_getElem? (i := 2) rfl, rfl, rfl, fun _ _ _ => rfl⟩
  | mul aa x y => exact ⟨_, List.mem_of_getElem? (i := 3) rfl, rfl, rfl, fun _ _ h => by obtain ⟨t, ht⟩ := h; cases ht; rfl⟩
  | add aa x y => exact ⟨_, List.mem_of_getElem? (i := 4) rfl, rfl, rfl, fun _ _ h => by obtain ⟨t, ht⟩ := h; cases ht; rfl⟩
  | cmp aa x y => exact ⟨_, List.mem_of_getElem? (i := 5) rfl, rfl, rfl, fun _ _ h => by obtain ⟨t, ht⟩ := h; cases ht; rfl⟩
  | push aa x => exact ⟨_, List.mem_of_getElem? (i := 6) rfl, rfl, rfl, fun _ _ h => by obtain ⟨t, ht⟩ := h; cases ht; rfl⟩
  | pop aa x => exact ⟨_, List.mem_of_getElem? (i := 7) rfl, rfl, rfl, fun _ _ h => by obtain ⟨t, ht⟩ := h; cases ht; rfl⟩
  | call aa x => exact ⟨_, List.mem_of_getElem? (i := 8) rfl, rfl, rfl, fun _ _ h => by obtain ⟨t, ht⟩ := h; cases ht; rfl⟩
  | ret aa => exact ⟨_, List.mem_of_getElem? (i := 9) rfl, rfl, rfl, fun _ _ _ => rfl⟩
  | st aa x y => exact ⟨_, List.mem_of_getElem? (i := 10) rfl, rfl, rfl, fun _ _ h => by obtain ⟨t, ht⟩ := h; cases ht; rfl⟩

/-- What a row builds: its identifier, the AA given, and operand bytes that begin the bytes given. -/
theorem build_fields {r : Row} (hr : r ∈ dispatchTable) (aa : BitVec 2) (a b : Byte) :
    (r.build aa a b).ident = r.id ∧ (r.build aa a b).aa = aa ∧ (r.build aa a b).operandBytes <+: [a, b] ∧
      (r.build aa a b).operandCount = r.canonicalAA.toNat := by
  simp only [dispatchTable, List.mem_cons, List.not_mem_nil, or_false] at hr
  rcases hr with rfl | rfl | rfl | rfl | rfl | rfl | rfl | rfl | rfl | rfl | rfl <;>
    exact ⟨rfl, rfl, by simp [Instr.operandBytes], rfl⟩
/-- What a decoded triple's instruction has from its bytes. -/
theorem fields_of_decode {op a b : Byte} {i : Instr} (h : decode [op, a, b] = .ok i) :
    i.ident = opId op ∧ i.aa = opAA op ∧ i.operandBytes <+: [a, b] := by
  rw [decode_cons] at h
  rcases decodeTriple_cases dispatchKey op a b with ⟨r, hr, hs, hd⟩ | ⟨-, hd⟩
  · cases hd.symm.trans h
    obtain ⟨h1, h2, h3, -⟩ := build_fields hr (opAA op) a b
    exact ⟨h1.trans (eq_of_beq hs).symm, h2, h3⟩
  · cases hd.symm.trans h

/-- A triple that is rejected has an identifier that no row has (R78). -/
theorem no_row_of_decode_error {op a b : Byte} {e : Reject} (h : decode [op, a, b] = .error e) :
    ∀ r ∈ dispatchTable, r.id ≠ opId op := by
  rw [decode_cons] at h
  rcases decodeTriple_cases dispatchKey op a b with ⟨r, hr, hs, hd⟩ | ⟨hn, -⟩
  · cases hd.symm.trans h
  · intro r hr he
    exact hn r hr (by simp [dispatchKey, Row.selects, he])

end Sys2Proof
end

