-- ==== Sys2Proof/Laws/Memory.lean ====
section
/-! SUPPORT. The laws of memory: a read after a write (both hold of every list, in canonical form or not), the canonical
form kept by every operation, and equality of canonical memories with equal contents. -/

namespace Sys2Proof.Machine.Memory

variable (m : Memory) (a c : Nat) (v : Byte)

/-! ## Reading after the parts of a write -/

theorem read_erase_same : read (erase m a) a = unlisted := by
  induction m with
  | nil => rfl
  | cons k m ih =>
    by_cases hk : k.1 = a
    · simpa [erase, hk] using ih
    · simpa [erase, hk, read] using ih

theorem read_erase_of_ne (hc : c ≠ a) : read (erase m a) c = read m c := by
  induction m with
  | nil => rfl
  | cons k m ih =>
    have ih' : read (m.filter fun d => d.1 != a) c = read m c := ih
    by_cases hk : k.1 = a
    · simp [erase, hk, read, ih', Ne.symm hc]
    · simp [erase, hk, read, ih']

theorem read_insert_same : read (insert m a v) a = v := by
  induction m with
  | nil => simp [insert, read]
  | cons k m ih =>
    by_cases hk : a ≤ k.1
    · simp [insert, hk, read]
    · simp [insert, hk, read, show k.1 ≠ a by omega, ih]

theorem read_insert_of_ne (hc : c ≠ a) : read (insert m a v) c = read m c := by
  induction m with
  | nil => simp [insert, read, Ne.symm hc]
  | cons k m ih =>
    by_cases hk : a ≤ k.1
    · simp [insert, hk, read, Ne.symm hc]
    · simp [insert, hk, read, ih]

/-! ## Reading after a write -/

@[simp] theorem read_nil : read [] a = 0 := rfl

@[simp] theorem read_write_same : read (write m a v) a = v := by
  unfold write
  split
  · simp [read_erase_same, *]
  · exact read_insert_same _ _ _

theorem read_write_of_ne (hc : c ≠ a) : read (write m a v) c = read m c := by
  unfold write
  split
  · exact read_erase_of_ne _ _ _ hc
  · rw [read_insert_of_ne _ _ _ _ hc, read_erase_of_ne _ _ _ hc]

theorem read_write : read (write m a v) c = if c = a then v else read m c := by
  split
  · simp [*]
  · exact read_write_of_ne _ _ _ _ ‹_›

/-- Reading after a list of bytes is written at rising addresses. -/
theorem read_writeAll (bs : List Byte) :
    read (writeAll m a bs) c = if a ≤ c then bs.getD (c - a) (read m c) else read m c := by
  induction bs generalizing m a with
  | nil => simp [writeAll]
  | cons b bs ih =>
    rw [writeAll, ih, read_write]
    rcases Nat.lt_trichotomy c a with h | h | h
    · simp [show ¬ a ≤ c by omega, show ¬ a + 1 ≤ c by omega, show c ≠ a by omega]
    · simp [h]
    · obtain ⟨d, rfl⟩ : ∃ d, c = a + (d + 1) := ⟨c - a - 1, by omega⟩
      simp [show a + 1 ≤ a + (d + 1) by omega, show a + (d + 1) - (a + 1) = d by omega]

/-! ## The canonical form -/

theorem wf_nil : wf [] := by decide

theorem wf_erase {m : Memory} (h : wf m) : wf (erase m a) :=
  ⟨h.1.filter _, fun k hk => h.2 k (List.mem_filter.1 hk).1⟩

theorem mem_insert {m : Memory} {k : Host.Cell} : k ∈ insert m a v ↔ k = (a, v) ∨ k ∈ m := by
  induction m with
  | nil => simp [insert]
  | cons d m ih =>
    by_cases hd : a ≤ d.1
    · simp [insert, hd]
    · simp [insert, hd, ih, or_left_comm]

theorem not_mem_erase {m : Memory} : ∀ k ∈ erase m a, k.1 ≠ a := by
  intro k hk
  simpa using (List.mem_filter.1 hk).2

theorem wf_insert {m : Memory} (h : wf m) (ha : a < 256) (hv : v ≠ unlisted)
    (hm : ∀ k ∈ m, k.1 ≠ a) : wf (insert m a v) := by
  refine ⟨?_, fun k hk => ?_⟩
  · have hs := h.1
    clear h
    induction m with
    | nil => simp [insert]
    | cons d m ih =>
      rw [List.pairwise_cons] at hs
      have hd : d.1 ≠ a := hm d (by simp)
      by_cases had : a ≤ d.1
      · have : a < d.1 := by omega
        simp only [insert, had, if_true, List.pairwise_cons]
        refine ⟨fun k hk => ?_, hs.1, hs.2⟩
        rcases List.mem_cons.1 hk with rfl | hk
        · exact this
        · exact Nat.lt_trans this (hs.1 k hk)
      · simp only [insert, had, if_false, List.pairwise_cons]
        refine ⟨fun k hk => ?_, ih (fun k hk => hm k (by simp [hk])) hs.2⟩
        rcases (mem_insert a v).1 hk with rfl | hk
        · show d.1 < a
          omega
        · exact hs.1 k hk
  · rcases (mem_insert a v).1 hk with rfl | hk
    · exact ⟨ha, hv⟩
    · exact h.2 k hk

/-- Every write to an existing address keeps the canonical form. -/
theorem wf_write {m : Memory} (h : wf m) (ha : a < 256) : wf (write m a v) := by
  unfold write
  split
  · exact wf_erase _ h
  · exact wf_insert _ _ (wf_erase _ h) ha ‹_› (not_mem_erase _)

theorem wf_writeAll {m : Memory} (h : wf m) (bs : List Byte) (ha : a + bs.length ≤ 256) :
    wf (writeAll m a bs) := by
  induction bs generalizing m a with
  | nil => exact h
  | cons b bs ih =>
    simp only [List.length_cons] at ha
    exact ih (a + 1) (wf_write a b h (by omega)) (by omega)

/-! ## Equal contents, equal memories -/

theorem read_of_lt_all {m : Memory} (h : ∀ k ∈ m, a < k.1) : read m a = unlisted := by
  induction m with
  | nil => rfl
  | cons k m ih =>
    have : k.1 ≠ a := Nat.ne_of_gt (h k (by simp))
    simp [read, this, ih fun d hd => h d (by simp [hd])]

theorem wf_tail {k : Host.Cell} {m : Memory} (h : wf (k :: m)) : wf m :=
  ⟨(List.pairwise_cons.1 h.1).2, fun d hd => h.2 d (by simp [hd])⟩

/-- In canonical form, memory is determined by what its addresses read as. -/
theorem ext_of_wf {m m' : Memory} (h : wf m) (h' : wf m') (hr : ∀ a, read m a = read m' a) : m = m' := by
  induction m generalizing m' with
  | nil =>
    cases m' with
    | nil => rfl
    | cons k m' =>
      have := hr k.1
      simp [read] at this
      exact absurd this.symm (h'.2 k (by simp)).2
  | cons k m ih =>
    cases m' with
    | nil =>
      have := hr k.1
      simp [read] at this
      exact absurd this (h.2 k (by simp)).2
    | cons k' m' =>
      have lo := (List.pairwise_cons.1 h.1).1
      have lo' := (List.pairwise_cons.1 h'.1).1
      have hk : k.1 = k'.1 := by
        rcases Nat.lt_trichotomy k.1 k'.1 with hlt | heq | hgt
        · have hz : read (k' :: m') k.1 = unlisted := by
            refine read_of_lt_all _ fun d hd => ?_
            rcases List.mem_cons.1 hd with rfl | hd
            · exact hlt
            · exact Nat.lt_trans hlt (lo' d hd)
          have := hr k.1
          rw [hz] at this
          simp [read] at this
          exact absurd this (h.2 k (by simp)).2
        · exact heq
        · have hz : read (k :: m) k'.1 = unlisted := by
            refine read_of_lt_all _ fun d hd => ?_
            rcases List.mem_cons.1 hd with rfl | hd
            · exact hgt
            · exact Nat.lt_trans hgt (lo d hd)
          have := hr k'.1
          rw [hz] at this
          simp [read] at this
          exact absurd this.symm (h'.2 k' (by simp)).2
      have hb : k.2 = k'.2 := by
        have := hr k.1
        simpa [read, hk] using this
      have hkk : k = k' := Prod.ext hk hb
      subst hkk
      congr 1
      refine ih (wf_tail h) (wf_tail h') fun a => ?_
      by_cases ha : k.1 = a
      · subst ha
        rw [read_of_lt_all _ lo, read_of_lt_all _ lo']
      · have := hr a
        simpa [read, ha] using this

end Sys2Proof.Machine.Memory
end

