-- ==== Sys2Proof/Laws/State.lean ====
section
/-! SUPPORT. One lemma for each field after each update of the state, so that no proof unfolds an update. -/

namespace Sys2Proof.Machine

variable (s : State) (r q : Fin 8) (v w : Byte) (f : FaultRecord) (op : Byte) (h : Bool)

/-! ## Writing a register -/

@[simp] theorem State.setReg_fl : (s.setReg r v).fl = s.fl := rfl
@[simp] theorem State.setReg_pc : (s.setReg r v).pc = s.pc := rfl
@[simp] theorem State.setReg_mem : (s.setReg r v).mem = s.mem := rfl
@[simp] theorem State.setReg_run : (s.setReg r v).run = s.run := rfl
@[simp] theorem State.setReg_out : (s.setReg r v).out = s.out := rfl
@[simp] theorem State.setReg_byte (a : Nat) : (s.setReg r v).byte a = s.byte a := rfl

/-- Reading a register after a write: the written one holds the value, every other one what it held. -/
theorem State.reg_setReg : (s.setReg r v).reg q = if q = r then v else s.reg q := by
  simp only [State.reg, State.setReg, Vector.get_eq_getElem, Vector.getElem_set]
  congr 1
  simp only [Fin.ext_iff, eq_comm]

@[simp] theorem State.reg_setReg_same : (s.setReg r v).reg r = v := by
  simp [State.reg_setReg]

theorem State.reg_setReg_of_ne (hq : q ≠ r) : (s.setReg r v).reg q = s.reg q := by
  simp [State.reg_setReg, hq]

/-- A second write of the same register replaces the first. -/
@[simp] theorem State.setReg_setReg : (s.setReg r v).setReg r w = s.setReg r w := by
  simp [State.setReg]

/-- Writing what a register holds changes nothing. -/
@[simp] theorem State.setReg_reg : s.setReg r (s.reg r) = s := by
  simp [State.setReg, State.reg, Vector.get_eq_getElem]

/-- Register files with equal registers are equal. -/
theorem State.x_eq_of_reg_eq {s t : State} (h : ∀ q, t.reg q = s.reg q) : t.x = s.x := by
  refine Vector.ext fun i hi => ?_
  have := h ⟨i, hi⟩
  simpa [State.reg, Vector.get_eq_getElem] using this

/-! ## SP and EM (R22, R23) -/

@[simp] theorem State.sp_setReg_same : (s.setReg Config.spReg v).sp = v := State.reg_setReg_same _ _ _

theorem State.sp_setReg_of_ne (hr : r ≠ Config.spReg) : (s.setReg r v).sp = s.sp :=
  State.reg_setReg_of_ne _ _ _ _ (Ne.symm hr)

@[simp] theorem State.em_setReg_sp : (s.setReg Config.spReg v).em = s.em :=
  State.reg_setReg_of_ne _ _ _ _ (by decide)

/-! ## Storing one cell, setting pc, setting FL -/

@[simp] theorem State.store_x (a : Nat) : (s.store a v).x = s.x := rfl
@[simp] theorem State.store_fl (a : Nat) : (s.store a v).fl = s.fl := rfl
@[simp] theorem State.store_pc (a : Nat) : (s.store a v).pc = s.pc := rfl
@[simp] theorem State.store_mem (a : Nat) : (s.store a v).mem = Memory.write s.mem a v := rfl
@[simp] theorem State.store_run (a : Nat) : (s.store a v).run = s.run := rfl
@[simp] theorem State.store_out (a : Nat) : (s.store a v).out = s.out := rfl
@[simp] theorem State.store_reg (a : Nat) : (s.store a v).reg q = s.reg q := rfl
@[simp] theorem State.store_sp (a : Nat) : (s.store a v).sp = s.sp := rfl
@[simp] theorem State.store_em (a : Nat) : (s.store a v).em = s.em := rfl

/-- Reading a byte after one cell is stored. -/
theorem State.store_byte (a c : Nat) : (s.store a v).byte c = if c = a then v else s.byte c :=
  Memory.read_write _ _ _ _

@[simp] theorem State.store_byte_same (a : Nat) : (s.store a v).byte a = v := Memory.read_write_same _ _ _

theorem State.store_byte_of_ne {a c : Nat} (h : c ≠ a) : (s.store a v).byte c = s.byte c :=
  Memory.read_write_of_ne _ _ _ _ h

@[simp] theorem State.setPc_x (n : Nat) : (s.setPc n).x = s.x := rfl
@[simp] theorem State.setPc_fl (n : Nat) : (s.setPc n).fl = s.fl := rfl
@[simp] theorem State.setPc_pc (n : Nat) : (s.setPc n).pc = n := rfl
@[simp] theorem State.setPc_mem (n : Nat) : (s.setPc n).mem = s.mem := rfl
@[simp] theorem State.setPc_run (n : Nat) : (s.setPc n).run = s.run := rfl
@[simp] theorem State.setPc_out (n : Nat) : (s.setPc n).out = s.out := rfl
@[simp] theorem State.setPc_reg (n : Nat) : (s.setPc n).reg q = s.reg q := rfl
@[simp] theorem State.setPc_sp (n : Nat) : (s.setPc n).sp = s.sp := rfl
@[simp] theorem State.setPc_em (n : Nat) : (s.setPc n).em = s.em := rfl
@[simp] theorem State.setPc_byte (n : Nat) (c : Nat) : (s.setPc n).byte c = s.byte c := rfl

@[simp] theorem State.setFl_x : (s.setFl v).x = s.x := rfl
@[simp] theorem State.setFl_fl : (s.setFl v).fl = v := rfl
@[simp] theorem State.setFl_pc : (s.setFl v).pc = s.pc := rfl
@[simp] theorem State.setFl_mem : (s.setFl v).mem = s.mem := rfl
@[simp] theorem State.setFl_run : (s.setFl v).run = s.run := rfl
@[simp] theorem State.setFl_out : (s.setFl v).out = s.out := rfl
@[simp] theorem State.setFl_reg : (s.setFl v).reg q = s.reg q := rfl
@[simp] theorem State.setFl_sp : (s.setFl v).sp = s.sp := rfl
@[simp] theorem State.setFl_em : (s.setFl v).em = s.em := rfl
@[simp] theorem State.setFl_byte (c : Nat) : (s.setFl v).byte c = s.byte c := rfl

/-! ## Output -/

@[simp] theorem State.emit_x : (s.emit v).x = s.x := rfl
@[simp] theorem State.emit_fl : (s.emit v).fl = s.fl := rfl
@[simp] theorem State.emit_pc : (s.emit v).pc = s.pc := rfl
@[simp] theorem State.emit_mem : (s.emit v).mem = s.mem := rfl
@[simp] theorem State.emit_run : (s.emit v).run = s.run := rfl
@[simp] theorem State.emit_out : (s.emit v).out = s.out ++ [v] := rfl
@[simp] theorem State.emit_reg : (s.emit v).reg q = s.reg q := rfl
@[simp] theorem State.emit_byte (a : Nat) : (s.emit v).byte a = s.byte a := rfl

/-! ## Raising a fault: only `run` changes (R165) -/

@[simp] theorem raise_x : (raise s f).x = s.x := rfl
@[simp] theorem raise_fl : (raise s f).fl = s.fl := rfl
@[simp] theorem raise_pc : (raise s f).pc = s.pc := rfl
@[simp] theorem raise_mem : (raise s f).mem = s.mem := rfl
@[simp] theorem raise_run : (raise s f).run = .faulted f := rfl
@[simp] theorem raise_out : (raise s f).out = s.out := rfl
@[simp] theorem raise_reg : (raise s f).reg q = s.reg q := rfl
@[simp] theorem raise_byte (a : Nat) : (raise s f).byte a = s.byte a := rfl

/-! ## The advance: only `pc` changes (R104) -/

@[simp] theorem advance_x : (advance op s).x = s.x := by unfold advance; split <;> rfl
@[simp] theorem advance_fl : (advance op s).fl = s.fl := by unfold advance; split <;> rfl
@[simp] theorem advance_mem : (advance op s).mem = s.mem := by unfold advance; split <;> rfl
@[simp] theorem advance_run : (advance op s).run = s.run := by unfold advance; split <;> rfl
@[simp] theorem advance_out : (advance op s).out = s.out := by unfold advance; split <;> rfl
@[simp] theorem advance_reg : (advance op s).reg q = s.reg q := by unfold advance; split <;> rfl
@[simp] theorem advance_byte (a : Nat) : (advance op s).byte a = s.byte a := by unfold advance; split <;> rfl

theorem advance_pc : (advance op s).pc = if opSetsPc op then s.pc else s.pc + 1 + (opAA op).toNat := by
  unfold advance; split <;> rfl

/-! ## Halting: only `run` changes (R106) -/

@[simp] theorem haltIf_x : (haltIf h s).x = s.x := by unfold haltIf; split <;> rfl
@[simp] theorem haltIf_fl : (haltIf h s).fl = s.fl := by unfold haltIf; split <;> rfl
@[simp] theorem haltIf_pc : (haltIf h s).pc = s.pc := by unfold haltIf; split <;> rfl
@[simp] theorem haltIf_mem : (haltIf h s).mem = s.mem := by unfold haltIf; split <;> rfl
@[simp] theorem haltIf_out : (haltIf h s).out = s.out := by unfold haltIf; split <;> rfl
@[simp] theorem haltIf_reg : (haltIf h s).reg q = s.reg q := by unfold haltIf; split <;> rfl
@[simp] theorem haltIf_byte (a : Nat) : (haltIf h s).byte a = s.byte a := by unfold haltIf; split <;> rfl

theorem haltIf_run : (haltIf h s).run = if h then .halted else s.run := by
  unfold haltIf; split <;> rfl

/-! ## SP and EM after the updates around a handler -/

@[simp] theorem State.emit_sp : (s.emit v).sp = s.sp := rfl
@[simp] theorem State.emit_em : (s.emit v).em = s.em := rfl
@[simp] theorem raise_sp : (raise s f).sp = s.sp := rfl
@[simp] theorem raise_em : (raise s f).em = s.em := rfl
@[simp] theorem advance_sp : (advance op s).sp = s.sp := advance_reg _ _ _
@[simp] theorem advance_em : (advance op s).em = s.em := advance_reg _ _ _
@[simp] theorem haltIf_sp : (haltIf h s).sp = s.sp := haltIf_reg _ _ _
@[simp] theorem haltIf_em : (haltIf h s).em = s.em := haltIf_reg _ _ _

/-! ## POP's increment: only SP changes (R141) -/

@[simp] theorem popIncrement_fl : (popIncrement s).fl = s.fl := by unfold popIncrement; split <;> rfl
@[simp] theorem popIncrement_pc : (popIncrement s).pc = s.pc := by unfold popIncrement; split <;> rfl
@[simp] theorem popIncrement_mem : (popIncrement s).mem = s.mem := by unfold popIncrement; split <;> rfl
@[simp] theorem popIncrement_run : (popIncrement s).run = s.run := by unfold popIncrement; split <;> rfl
@[simp] theorem popIncrement_byte (a : Nat) : (popIncrement s).byte a = s.byte a := by unfold popIncrement; split <;> rfl
@[simp] theorem popIncrement_out : (popIncrement s).out = s.out := by unfold popIncrement; split <;> rfl

theorem popIncrement_reg_of_ne (hq : q ≠ Config.spReg) : (popIncrement s).reg q = s.reg q := by
  unfold popIncrement
  split
  · exact State.reg_setReg_of_ne _ _ _ _ hq
  · rfl

theorem popIncrement_sp :
    (popIncrement s).sp = if s.sp < Config.spTop then s.sp + 1 else s.sp := by
  unfold popIncrement
  split <;> simp [State.sp]

/-! ## The state after reset -/

theorem State.reset_mem_wf : Memory.wf State.reset.mem := by decide

end Sys2Proof.Machine
end

