-- ==== Sys2Proof/Laws/Ops.lean ====
section
/-! SUPPORT. One lemma for each shared operation that says everything it can do; proofs cite these and do not unfold the
operation. -/

namespace Sys2Proof.Machine

/-- `WIDTH` is the width of a byte (R6). -/
theorem byte_width : Byte = BitVec Config.width := rfl

/-! ## Register operands (R74) -/

@[simp] theorem regByte_toNat (r : Fin 8) : (regByte r).toNat = r.val := by
  simp only [regByte, BitVec.toNat_ofNat]; omega

theorem regByte_inj {r q : Fin 8} : regByte r = regByte q ↔ r = q :=
  ⟨fun h => Fin.ext (by simpa using congrArg BitVec.toNat h), congrArg regByte⟩

@[simp] theorem regIndex_regByte (r : Fin 8) : regIndex (regByte r) = some r := by
  revert r; decide

theorem regIndex_eq_some {b : Byte} {r : Fin 8} : regIndex b = some r ↔ b = regByte r := by
  constructor
  · intro h
    unfold regIndex at h
    split at h
    · obtain rfl := Option.some.inj h
      exact BitVec.eq_of_toNat_eq (by simp)
    · cases h
  · rintro rfl
    simp

theorem regIndex_eq_none {b : Byte} : regIndex b = none ↔ 8 ≤ b.toNat := by
  unfold regIndex
  split <;> simp_all

@[simp] theorem regOperand_regByte (s : State) (r : Fin 8) : regOperand s (regByte r) = .ok r := by
  simp [regOperand]

/-- A legal operand byte gives its register, any other faults with itself as the index. -/
theorem regOperand_cases (s : State) (b : Byte) :
    (∃ r, b = regByte r ∧ regOperand s b = .ok r) ∨
      (8 ≤ b.toNat ∧ regOperand s b = .error (.fault (.registerIndexFault s.pc b))) := by
  cases h : regIndex b with
  | some r => exact .inl ⟨r, regIndex_eq_some.1 h, by simp [regOperand, h]⟩
  | none => exact .inr ⟨regIndex_eq_none.1 h, by simp [regOperand, h]⟩

theorem regOperand_of_le {s : State} {b : Byte} (h : 8 ≤ b.toNat) :
    regOperand s b = .error (.fault (.registerIndexFault s.pc b)) := by
  simp [regOperand, regIndex_eq_none.2 h]

/-! ## Memory (R53, R54, R55) -/

theorem memRead_of_lt {s : State} {a : Nat} (h : a < 256) : memRead s a = .ok (s.byte a) := by
  simp [memRead, State.byte, h]

theorem memRead_of_ge {s : State} {a : Nat} (h : 256 ≤ a) :
    memRead s a = .error (.fault (.addressFault a s.pc)) := by
  simp [memRead, Nat.not_lt.2 h]

/-- A data address is a byte, so the read is in range (R55). -/
@[simp] theorem memRead_toNat (s : State) (b : Byte) : memRead s b.toNat = .ok (s.byte b.toNat) :=
  memRead_of_lt b.isLt

/-- A data address is a byte, so the write is in range (R55). -/
@[simp] theorem memWrite_toNat (s : State) (b v : Byte) :
    memWrite s b.toNat v = .ok (s.store b.toNat v) := by
  have : b.toNat < Config.memSize := b.isLt
  simp [memWrite, this]

/-! ## The stack pointer's edges under this model's `SP_EDGE` -/

/-- The decrement without a wrap. -/
theorem toNat_sub_one {v : Byte} (h : 0 < v.toNat) : (v - 1).toNat = v.toNat - 1 := by
  have := v.isLt
  simp only [BitVec.toNat_sub, BitVec.toNat_ofNat, BitVec.ofNat_eq_ofNat]
  omega

@[simp] theorem spDecrement_spEdge (sp : Byte) : spDecrement spEdge sp = .ok (sp - 1) := rfl
@[simp] theorem spIncrement_spEdge (sp : Byte) : spIncrement spEdge sp = .ok (sp + 1) := rfl

/-! ## Fetch (R101, R102) -/

/-- The triple at `pc`. -/
def tripleAt (s : State) : Triple := ⟨s.byte s.pc, s.byte (s.pc + 1), s.byte (s.pc + 2)⟩

theorem fetch_of_le {s : State} (h : s.pc ≤ 253) : fetch s = .ok (tripleAt s) := by
  unfold fetch
  rw [memRead_of_lt (by omega), memRead_of_lt (by omega), memRead_of_lt (by omega)]
  rfl

theorem fetch_of_gt {s : State} (h : 253 < s.pc) :
    fetch s = .error (.fault (.addressFault (max s.pc 256) s.pc)) := by
  unfold fetch
  rcases Nat.lt_or_ge s.pc 256 with hlt | hge
  · rw [memRead_of_lt hlt]
    rcases Nat.lt_or_ge (s.pc + 1) 256 with hlt1 | hge1
    · rw [memRead_of_lt hlt1, memRead_of_ge (by omega), show max s.pc 256 = s.pc + 2 by omega]
      rfl
    · rw [memRead_of_ge hge1, show max s.pc 256 = s.pc + 1 by omega]
      rfl
  · rw [memRead_of_ge hge, show max s.pc 256 = s.pc by omega]
    rfl

/-- What a cycle finds to do: an instruction; or the fault of the fetch; or that of the decoder. -/
theorem fetchDecode_cases (s : State) :
    (s.pc ≤ 253 ∧ ∃ i, decode [s.byte s.pc, s.byte (s.pc + 1), s.byte (s.pc + 2)] = .ok i ∧ fetchDecode s = .ok i) ∨
      (253 < s.pc ∧ fetchDecode s = .error (.fault (.addressFault (max s.pc 256) s.pc))) ∨
      (s.pc ≤ 253 ∧
        decode [s.byte s.pc, s.byte (s.pc + 1), s.byte (s.pc + 2)] = .error (.unknownInstruction (s.byte s.pc)) ∧
        fetchDecode s = .error (.fault (.unknownInstruction (s.byte s.pc) s.pc))) := by
  rcases Nat.lt_or_ge 253 s.pc with hgt | hle
  · refine .inr (.inl ⟨hgt, ?_⟩)
    unfold fetchDecode
    rw [fetch_of_gt hgt]
    rfl
  · have hf := fetch_of_le (s := s) hle
    rcases decodeTriple_cases dispatchKey (s.byte s.pc) (s.byte (s.pc + 1)) (s.byte (s.pc + 2)) with
      ⟨r, -, -, hd⟩ | ⟨-, hd⟩
    · refine .inl ⟨hle, _, hd, ?_⟩
      unfold fetchDecode
      rw [hf]
      simp only [tripleAt, decode, bind, Except.bind, hd]
      rfl
    · refine .inr (.inr ⟨hle, hd, ?_⟩)
      unfold fetchDecode
      rw [hf]
      simp only [tripleAt, decode, bind, Except.bind, hd]

/-! ## The end of a cycle (R104, R106, R109) -/

/-- Everything the end of a cycle can answer. -/
theorem completeCycle_cases (s : State) (op : Byte) (halting : Bool) (h : Except Stop State) :
    (∃ u, h = .ok u ∧ completeCycle s op halting h = .next (haltIf halting (advance op u))) ∨
      (∃ f, h = .error (.fault f) ∧ completeCycle s op halting h = .next (raise s f)) ∨
      (∃ r, h = .error (.refuse r) ∧ completeCycle s op halting h = .refused r) := by
  match h with
  | .ok u => exact .inl ⟨u, rfl, rfl⟩
  | .error (.fault f) => exact .inr (.inl ⟨f, rfl, rfl⟩)
  | .error (.refuse r) => exact .inr (.inr ⟨r, rfl, rfl⟩)

@[simp] theorem completeCycle_ok (s u : State) (op : Byte) (halting : Bool) :
    completeCycle s op halting (.ok u) = .next (haltIf halting (advance op u)) := rfl

@[simp] theorem completeCycle_fault (s : State) (op : Byte) (halting : Bool) (f : FaultRecord) :
    completeCycle s op halting (.error (.fault f)) = .next (raise s f) := rfl

/-! ## The advance of an instruction's own opcode byte (R104, R105) -/

@[simp] theorem opSetsPc_opcodeByte (i : Instr) : opSetsPc i.opcodeByte = i.setsPc := by
  cases i <;> simp [Instr.opcodeByte, Instr.ident, Instr.setsPc]

@[simp] theorem opAA_opcodeByte (i : Instr) : opAA i.opcodeByte = i.aa := opAA_opByte _ _

theorem advance_opcodeByte (i : Instr) (s : State) :
    advance i.opcodeByte s = if i.setsPc then s else s.setPc (s.pc + 1 + i.aa.toNat) := by
  simp [advance]

end Sys2Proof.Machine
end

