-- ==== Sys2Proof/Laws/Exec.lean ====
section
/-! SUPPORT. `exec` and `step` taken apart once: the handler of each instruction, and the answers a cycle can give. -/

namespace Sys2Proof.Machine

/-- The handler alone, without the advance and the halt around it. -/
def handler (s : State) : Instr → Except Stop State
  | .ldi _ a imm => do
    let ra ← regOperand s a
    return s.setReg ra imm
  | .prn _ a => do
    let ra ← regOperand s a
    return s.emit (s.reg ra)
  | .hlt _ => .ok s
  | .mul _ a b => do
    let ra ← regOperand s a
    let rb ← regOperand s b
    return s.setReg ra (aluMul (s.reg ra) (s.reg rb))
  | .add _ a b => do
    let ra ← regOperand s a
    let rb ← regOperand s b
    return s.setReg ra (aluAdd (s.reg ra) (s.reg rb))
  | .cmp _ a b => do
    let ra ← regOperand s a
    let rb ← regOperand s b
    return s.setFl (compareFlags s.fl (s.reg ra) (s.reg rb))
  | .push _ a => do
    let ra ← regOperand s a
    if s.em.toNat + 1 ≤ s.sp.toNat then
      let s₁ := s.setReg Config.spReg (s.sp - 1)
      memWrite s₁ s₁.sp.toNat (s₁.reg ra)
    else
      .error (.fault (.stackOverflow s.pc s.sp s.em))
  | .pop _ a => do
    let ra ← regOperand s a
    let v ← memRead s s.sp.toNat
    return popIncrement (s.setReg ra v)
  | .call _ a => callHandler spEdge a s
  | .ret _ => retHandler spEdge s
  | .st _ a b => do
    let ra ← regOperand s a
    let rb ← regOperand s b
    memWrite s (s.reg rb).toNat (s.reg ra)

/-- Only HLT signals halt (R106). -/
def signalsHalt : Instr → Bool
  | .hlt _ => true
  | .ldi _ _ _ => false
  | .prn _ _ => false
  | .mul _ _ _ => false
  | .add _ _ _ => false
  | .cmp _ _ _ => false
  | .push _ _ => false
  | .pop _ _ => false
  | .call _ _ => false
  | .ret _ => false
  | .st _ _ _ => false

/-- Every instruction is its handler inside the one cycle of R107. -/
theorem exec_eq_completeCycle (i : Instr) (s : State) :
    exec i s = completeCycle s i.opcodeByte (signalsHalt i) (handler s i) := by
  cases i <;> rfl

/-- What an instruction answers when its handler completes. -/
theorem exec_of_handler_ok {i : Instr} {s u : State} (h : handler s i = .ok u) :
    exec i s = .next (haltIf (signalsHalt i) (advance i.opcodeByte u)) := by
  rw [exec_eq_completeCycle, h, completeCycle_ok]

/-- What an instruction answers when its handler faults: the state before, faulted. -/
theorem exec_of_handler_fault {i : Instr} {s : State} {f : FaultRecord} (h : handler s i = .error (.fault f)) :
    exec i s = .next (raise s f) := by
  rw [exec_eq_completeCycle, h, completeCycle_fault]

/-! ## The handlers on legal register operands -/

section Handlers

variable (s : State) (aa : BitVec 2) (r ra rb : Fin 8) (imm : Byte)

theorem handler_ldi : handler s (.ldi aa (regByte r) imm) = .ok (s.setReg r imm) := by
  simp only [handler, regOperand_regByte]; rfl

theorem handler_prn : handler s (.prn aa (regByte r)) = .ok (s.emit (s.reg r)) := by
  simp only [handler, regOperand_regByte]; rfl

theorem handler_add : handler s (.add aa (regByte ra) (regByte rb)) =
    .ok (s.setReg ra (aluAdd (s.reg ra) (s.reg rb))) := by
  simp only [handler, regOperand_regByte]; rfl

theorem handler_mul : handler s (.mul aa (regByte ra) (regByte rb)) =
    .ok (s.setReg ra (aluMul (s.reg ra) (s.reg rb))) := by
  simp only [handler, regOperand_regByte]; rfl

theorem handler_cmp : handler s (.cmp aa (regByte ra) (regByte rb)) =
    .ok (s.setFl (compareFlags s.fl (s.reg ra) (s.reg rb))) := by
  simp only [handler, regOperand_regByte]; rfl

theorem handler_st : handler s (.st aa (regByte ra) (regByte rb)) =
    .ok (s.store (s.reg rb).toNat (s.reg ra)) := by
  simp only [handler, regOperand_regByte, memWrite_toNat]; rfl

theorem handler_push_ok (h : s.em.toNat < s.sp.toNat) : handler s (.push aa (regByte r)) =
    .ok ((s.setReg Config.spReg (s.sp - 1)).store (s.sp - 1).toNat ((s.setReg Config.spReg (s.sp - 1)).reg r)) := by
  simp only [handler, regOperand_regByte, bind, Except.bind, Nat.succ_le_of_lt h, if_true, State.sp_setReg_same,
    memWrite_toNat]

theorem handler_push_overflow (h : s.sp.toNat ≤ s.em.toNat) : handler s (.push aa (regByte r)) =
    .error (.fault (.stackOverflow s.pc s.sp s.em)) := by
  simp only [handler, regOperand_regByte, bind, Except.bind, show ¬ s.em.toNat + 1 ≤ s.sp.toNat by omega, if_false]

theorem handler_pop : handler s (.pop aa (regByte r)) = .ok (popIncrement (s.setReg r (s.byte s.sp.toNat))) := by
  simp only [handler, regOperand_regByte, memRead_toNat]; rfl

theorem handler_call : handler s (.call aa (regByte r)) =
    .ok (((s.setReg Config.spReg (s.sp - 1)).store (s.sp - 1).toNat (returnAddress s)).setPc
      ((s.setReg Config.spReg (s.sp - 1)).reg r).toNat) := by
  simp only [handler, callHandler, regOperand_regByte, spDecrement_spEdge, bind, Except.bind, State.sp_setReg_same,
    memWrite_toNat]
  rfl

theorem handler_ret : handler s (.ret aa) =
    .ok ((s.setReg Config.spReg (s.sp + 1)).setPc (s.byte s.sp.toNat).toNat) := by
  simp only [handler, retHandler, memRead_toNat, spIncrement_spEdge]; rfl

end Handlers

/-- An instruction's handler completes, or it faults on an illegal register operand, or it is a PUSH that overflows;
no handler refuses. -/
theorem handler_cases (s : State) (i : Instr) :
    (∃ u, handler s i = .ok u ∧ i.wellFormed = true) ∨
      (∃ b ∈ i.regOperands, 8 ≤ b.toNat ∧ handler s i = .error (.fault (.registerIndexFault s.pc b))) ∨
      (∃ aa r, i = .push aa (regByte r) ∧ s.sp.toNat ≤ s.em.toNat ∧
        handler s i = .error (.fault (.stackOverflow s.pc s.sp s.em))) := by
  have one : ∀ (b : Byte), (∃ r, b = regByte r) ∨ 8 ≤ b.toNat := fun b =>
    (regOperand_cases s b).imp (fun ⟨r, h, _⟩ => ⟨r, h⟩) (·.1)
  have two : ∀ a b : Byte, (∃ ra rb, a = regByte ra ∧ b = regByte rb) ∨ 8 ≤ a.toNat ∨
      ((∃ ra, a = regByte ra) ∧ 8 ≤ b.toNat) := fun a b => by
    rcases one a with ⟨ra, rfl⟩ | ha
    · rcases one b with ⟨rb, rfl⟩ | hb
      · exact .inl ⟨ra, rb, rfl, rfl⟩
      · exact .inr (.inr ⟨⟨ra, rfl⟩, hb⟩)
    · exact .inr (.inl ha)
  cases i with
  | ldi aa a imm =>
    rcases one a with ⟨r, rfl⟩ | ha
    · exact .inl ⟨_, handler_ldi _ _ _ _, by simp [Instr.wellFormed, Instr.regOperands]⟩
    · exact .inr (.inl ⟨a, by simp [Instr.regOperands], ha, by simp [handler, regOperand_of_le ha, bind, Except.bind]⟩)
  | prn aa a =>
    rcases one a with ⟨r, rfl⟩ | ha
    · exact .inl ⟨_, handler_prn _ _ _, by simp [Instr.wellFormed, Instr.regOperands]⟩
    · exact .inr (.inl ⟨a, by simp [Instr.regOperands], ha, by simp [handler, regOperand_of_le ha, bind, Except.bind]⟩)
  | hlt aa => exact .inl ⟨s, rfl, rfl⟩
  | mul aa a b =>
    rcases two a b with ⟨ra, rb, rfl, rfl⟩ | ha | ⟨⟨ra, rfl⟩, hb⟩
    · exact .inl ⟨_, handler_mul _ _ _ _, by simp [Instr.wellFormed, Instr.regOperands]⟩
    · exact .inr (.inl ⟨a, by simp [Instr.regOperands], ha, by simp [handler, regOperand_of_le ha, bind, Except.bind]⟩)
    · exact .inr (.inl ⟨b, by simp [Instr.regOperands], hb, by simp [handler, regOperand_of_le hb, bind, Except.bind]⟩)
  | add aa a b =>
    rcases two a b with ⟨ra, rb, rfl, rfl⟩ | ha | ⟨⟨ra, rfl⟩, hb⟩
    · exact .inl ⟨_, handler_add _ _ _ _, by simp [Instr.wellFormed, Instr.regOperands]⟩
    · exact .inr (.inl ⟨a, by simp [Instr.regOperands], ha, by simp [handler, regOperand_of_le ha, bind, Except.bind]⟩)
    · exact .inr (.inl ⟨b, by simp [Instr.regOperands], hb, by simp [handler, regOperand_of_le hb, bind, Except.bind]⟩)
  | cmp aa a b =>
    rcases two a b with ⟨ra, rb, rfl, rfl⟩ | ha | ⟨⟨ra, rfl⟩, hb⟩
    · exact .inl ⟨_, handler_cmp _ _ _ _, by simp [Instr.wellFormed, Instr.regOperands]⟩
    · exact .inr (.inl ⟨a, by simp [Instr.regOperands], ha, by simp [handler, regOperand_of_le ha, bind, Except.bind]⟩)
    · exact .inr (.inl ⟨b, by simp [Instr.regOperands], hb, by simp [handler, regOperand_of_le hb, bind, Except.bind]⟩)
  | push aa a =>
    rcases one a with ⟨r, rfl⟩ | ha
    · rcases Nat.lt_or_ge s.em.toNat s.sp.toNat with hlt | hge
      · exact .inl ⟨_, handler_push_ok _ _ _ hlt, by simp [Instr.wellFormed, Instr.regOperands]⟩
      · exact .inr (.inr ⟨aa, r, rfl, hge, handler_push_overflow _ _ _ hge⟩)
    · exact .inr (.inl ⟨a, by simp [Instr.regOperands], ha, by simp [handler, regOperand_of_le ha, bind, Except.bind]⟩)
  | pop aa a =>
    rcases one a with ⟨r, rfl⟩ | ha
    · exact .inl ⟨_, handler_pop _ _ _, by simp [Instr.wellFormed, Instr.regOperands]⟩
    · exact .inr (.inl ⟨a, by simp [Instr.regOperands], ha, by simp [handler, regOperand_of_le ha, bind, Except.bind]⟩)
  | call aa a =>
    rcases one a with ⟨r, rfl⟩ | ha
    · exact .inl ⟨_, handler_call _ _ _, by simp [Instr.wellFormed, Instr.regOperands]⟩
    · exact .inr (.inl ⟨a, by simp [Instr.regOperands], ha,
        by simp [handler, callHandler, regOperand_of_le ha, bind, Except.bind]⟩)
  | ret aa => exact .inl ⟨_, handler_ret _ _, rfl⟩
  | st aa a b =>
    rcases two a b with ⟨ra, rb, rfl, rfl⟩ | ha | ⟨⟨ra, rfl⟩, hb⟩
    · exact .inl ⟨_, handler_st _ _ _ _, by simp [Instr.wellFormed, Instr.regOperands]⟩
    · exact .inr (.inl ⟨a, by simp [Instr.regOperands], ha, by simp [handler, regOperand_of_le ha, bind, Except.bind]⟩)
    · exact .inr (.inl ⟨b, by simp [Instr.regOperands], hb, by simp [handler, regOperand_of_le hb, bind, Except.bind]⟩)

/-- The register operands of a well-formed instruction name registers. -/
theorem regByte_of_wellFormed {i : Instr} (hw : i.wellFormed = true) : ∀ a ∈ i.regOperands, ∃ r, a = regByte r := by
  intro a ha
  have h8 : a.toNat < 8 := of_decide_eq_true (List.all_eq_true.1 hw a ha)
  exact ⟨⟨a.toNat, h8⟩, BitVec.eq_of_toNat_eq (by simp)⟩

/-- Say once what a handler that completes has done: one case for each instruction, its register operands legal. -/
theorem handler_ok_cases {i : Instr} {s u : State} (h : handler s i = .ok u) :
    (∃ aa r imm, i = .ldi aa (regByte r) imm ∧ u = s.setReg r imm) ∨
    (∃ aa r, i = .prn aa (regByte r) ∧ u = s.emit (s.reg r)) ∨
    (∃ aa, i = .hlt aa ∧ u = s) ∨
    (∃ aa ra rb, i = .mul aa (regByte ra) (regByte rb) ∧ u = s.setReg ra (aluMul (s.reg ra) (s.reg rb))) ∨
    (∃ aa ra rb, i = .add aa (regByte ra) (regByte rb) ∧ u = s.setReg ra (aluAdd (s.reg ra) (s.reg rb))) ∨
    (∃ aa ra rb, i = .cmp aa (regByte ra) (regByte rb) ∧
      u = s.setFl (compareFlags s.fl (s.reg ra) (s.reg rb))) ∨
    (∃ aa ra rb, i = .st aa (regByte ra) (regByte rb) ∧ u = s.store (s.reg rb).toNat (s.reg ra)) ∨
    (∃ aa r, i = .push aa (regByte r) ∧ s.em.toNat < s.sp.toNat ∧
      u = (s.setReg Config.spReg (s.sp - 1)).store (s.sp - 1).toNat ((s.setReg Config.spReg (s.sp - 1)).reg r)) ∨
    (∃ aa r, i = .pop aa (regByte r) ∧ u = popIncrement (s.setReg r (s.byte s.sp.toNat))) ∨
    (∃ aa r, i = .call aa (regByte r) ∧
      u = ((s.setReg Config.spReg (s.sp - 1)).store (s.sp - 1).toNat (returnAddress s)).setPc
        ((s.setReg Config.spReg (s.sp - 1)).reg r).toNat) ∨
    (∃ aa, i = .ret aa ∧ u = (s.setReg Config.spReg (s.sp + 1)).setPc (s.byte s.sp.toNat).toNat) := by
  have hw : i.wellFormed = true := by
    rcases handler_cases s i with ⟨u', h', w⟩ | ⟨b, _, _, h'⟩ | ⟨aa, r, _, _, h'⟩
    · exact w
    · rw [h'] at h; cases h
    · rw [h'] at h; cases h
  have ops := regByte_of_wellFormed hw
  cases i with
  | ldi aa a imm =>
    obtain ⟨r, rfl⟩ := ops a (by simp [Instr.regOperands])
    cases (handler_ldi _ _ _ _).symm.trans h
    exact .inl ⟨_, _, _, rfl, rfl⟩
  | prn aa a =>
    obtain ⟨r, rfl⟩ := ops a (by simp [Instr.regOperands])
    cases (handler_prn _ _ _).symm.trans h
    exact .inr <| .inl ⟨_, _, rfl, rfl⟩
  | hlt aa =>
    cases h
    exact .inr <| .inr <| .inl ⟨_, rfl, rfl⟩
  | mul aa a b =>
    obtain ⟨r, rfl⟩ := ops a (by simp [Instr.regOperands])
    obtain ⟨r', rfl⟩ := ops b (by simp [Instr.regOperands])
    cases (handler_mul _ _ _ _).symm.trans h
    exact .inr <| .inr <| .inr <| .inl ⟨_, _, _, rfl, rfl⟩
  | add aa a b =>
    obtain ⟨r, rfl⟩ := ops a (by simp [Instr.regOperands])
    obtain ⟨r', rfl⟩ := ops b (by simp [Instr.regOperands])
    cases (handler_add _ _ _ _).symm.trans h
    exact .inr <| .inr <| .inr <| .inr <| .inl ⟨_, _, _, rfl, rfl⟩
  | cmp aa a b =>
    obtain ⟨r, rfl⟩ := ops a (by simp [Instr.regOperands])
    obtain ⟨r', rfl⟩ := ops b (by simp [Instr.regOperands])
    cases (handler_cmp _ _ _ _).symm.trans h
    exact .inr <| .inr <| .inr <| .inr <| .inr <| .inl ⟨_, _, _, rfl, rfl⟩
  | st aa a b =>
    obtain ⟨r, rfl⟩ := ops a (by simp [Instr.regOperands])
    obtain ⟨r', rfl⟩ := ops b (by simp [Instr.regOperands])
    cases (handler_st _ _ _ _).symm.trans h
    exact .inr <| .inr <| .inr <| .inr <| .inr <| .inr <| .inl ⟨_, _, _, rfl, rfl⟩
  | push aa a =>
    obtain ⟨r, rfl⟩ := ops a (by simp [Instr.regOperands])
    rcases Nat.lt_or_ge s.em.toNat s.sp.toNat with hlt | hge
    · cases (handler_push_ok _ _ _ hlt).symm.trans h
      exact .inr <| .inr <| .inr <| .inr <| .inr <| .inr <| .inr <| .inl ⟨_, _, rfl, hlt, rfl⟩
    · cases (handler_push_overflow _ _ _ hge).symm.trans h
  | pop aa a =>
    obtain ⟨r, rfl⟩ := ops a (by simp [Instr.regOperands])
    cases (handler_pop _ _ _).symm.trans h
    exact .inr <| .inr <| .inr <| .inr <| .inr <| .inr <| .inr <| .inr <| .inl ⟨_, _, rfl, rfl⟩
  | call aa a =>
    obtain ⟨r, rfl⟩ := ops a (by simp [Instr.regOperands])
    cases (handler_call _ _ _).symm.trans h
    exact .inr <| .inr <| .inr <| .inr <| .inr <| .inr <| .inr <| .inr <| .inr <| .inl ⟨_, _, rfl, rfl⟩
  | ret aa =>
    cases (handler_ret _ _).symm.trans h
    exact .inr <| .inr <| .inr <| .inr <| .inr <| .inr <| .inr <| .inr <| .inr <| .inr <| ⟨_, rfl, rfl⟩

/-- An instruction completes, or it faults with the state before; `exec` has no third answer. -/
theorem exec_cases (i : Instr) (s : State) :
    (∃ u, handler s i = .ok u ∧ exec i s = .next (haltIf (signalsHalt i) (advance i.opcodeByte u))) ∨
      (∃ f, handler s i = .error (.fault f) ∧ exec i s = .next (raise s f)) := by
  rcases handler_cases s i with ⟨u, h, _⟩ | ⟨b, _, _, h⟩ | ⟨aa, r, _, _, h⟩
  · exact .inl ⟨u, h, exec_of_handler_ok h⟩
  · exact .inr ⟨_, h, exec_of_handler_fault h⟩
  · exact .inr ⟨_, h, exec_of_handler_fault h⟩

/-- No handler touches `run`, and none but CALL's and RETURN's touches `pc` (R105). -/
theorem handler_ok_run_pc {i : Instr} {s u : State} (h : handler s i = .ok u) :
    u.run = s.run ∧ (i.setsPc = false → u.pc = s.pc) ∧ (i.setsPc = true → u.pc ≤ 255) := by
  have byte : ∀ b : Byte, b.toNat ≤ 255 := fun b => Nat.le_of_lt_succ b.isLt
  rcases handler_ok_cases h with ⟨_, _, _, rfl, rfl⟩ | ⟨_, _, rfl, rfl⟩ | ⟨_, rfl, rfl⟩ | ⟨_, _, _, rfl, rfl⟩ |
    ⟨_, _, _, rfl, rfl⟩ | ⟨_, _, _, rfl, rfl⟩ | ⟨_, _, _, rfl, rfl⟩ | ⟨_, _, rfl, _, rfl⟩ | ⟨_, _, rfl, rfl⟩ |
    ⟨_, _, rfl, rfl⟩ | ⟨_, rfl, rfl⟩ <;> simp [Instr.setsPc, byte]

/-- A step that answers a next state began in a running engine. -/
theorem run_of_step_next {s t : State} (h : step s = .next t) : s.run = .running := by
  unfold step at h
  split at h <;> first | assumption | cases h

/-- The step of a running engine, in the three ways a cycle can begin. -/
theorem step_cases {s : State} (hr : s.run = .running) :
    (s.pc ≤ 253 ∧ ∃ i, decode [s.byte s.pc, s.byte (s.pc + 1), s.byte (s.pc + 2)] = .ok i ∧ step s = exec i s) ∨
      (253 < s.pc ∧ step s = .next (raise s (.addressFault (max s.pc 256) s.pc))) ∨
      (s.pc ≤ 253 ∧
        decode [s.byte s.pc, s.byte (s.pc + 1), s.byte (s.pc + 2)] = .error (.unknownInstruction (s.byte s.pc)) ∧
        step s = .next (raise s (.unknownInstruction (s.byte s.pc) s.pc))) := by
  rcases fetchDecode_cases s with ⟨hle, i, hd, hf⟩ | ⟨hgt, hf⟩ | ⟨hle, hd, hf⟩
  · exact .inl ⟨hle, i, hd, by simp [step, hr, hf]⟩
  · exact .inr (.inl ⟨hgt, by simp [step, hr, hf]⟩)
  · exact .inr (.inr ⟨hle, hd, by simp [step, hr, hf]⟩)

end Sys2Proof.Machine
end

