-- ==== Sys2Proof/Laws/Flags.lean ====
section
/-! SUPPORT. What COMPARE's flag computation gives (R132). -/

namespace Sys2Proof.Machine

variable (fl a b : Byte)

/-- Of the mask of bits 7:3. -/
theorem getLsbD_mask (n : Nat) (hn : n < 8) : (0xF8#8).getLsbD n = decide (3 ≤ n) := by
  revert n; decide

/-- Bits 7:3 are not written. -/
theorem compareFlags_getLsbD {n : Nat} (hn : 3 ≤ n) : (compareFlags fl a b).getLsbD n = fl.getLsbD n := by
  have low : ∀ v : Byte, v.toNat < 8 → v.getLsbD n = false := fun v hv =>
    Nat.testBit_lt_two_pow (Nat.lt_of_lt_of_le hv (Nat.pow_le_pow_right (n := 2) (by decide) hn))
  unfold compareFlags
  rw [BitVec.getLsbD_or, BitVec.getLsbD_and]
  have hv : ∀ p q : Bool, ((if p then 0x04 else if q then 0x02 else 0x01 : Byte)).toNat < 8 := by decide
  have hz := low _ (hv (decide (a < b)) (decide (a > b)))
  simp only [decide_eq_true_eq] at hz
  rw [hz, Bool.or_false]
  rcases Nat.lt_or_ge n 8 with h8 | h8
  · rw [show ((0xF8 : Byte)).getLsbD n = true from
      (getLsbD_mask n h8).trans (by simpa using hn), Bool.and_true]
  · simp [BitVec.getLsbD_of_ge _ _ h8]

/-- The low three bits, and the mask, of FL after COMPARE: they do not depend on FL before. -/
theorem compareFlags_low {n : Nat} (hn : n < 3) (fl' : Byte) :
    (compareFlags fl a b).getLsbD n = (compareFlags fl' a b).getLsbD n := by
  have : ((0xF8 : Byte)).getLsbD n = false := by
    rw [show ((0xF8 : Byte)).getLsbD n = decide (3 ≤ n) from getLsbD_mask n (by omega)]; simpa using hn
  unfold compareFlags
  simp only [BitVec.getLsbD_or, BitVec.getLsbD_and, this, Bool.and_false]

/-- On an FL whose bits 7:3 are 0, the result is one of the three values. -/
theorem compareFlags_of_masked (h : fl &&& 0xF8 = 0) :
    compareFlags fl a b = if a < b then 0x04 else if a > b then 0x02 else 0x01 := by
  rw [compareFlags, h]
  exact BitVec.zero_or

theorem flagE_compareFlags : flagE (compareFlags fl a b) = decide (a = b) := by
  rw [flagE, compareFlags_low _ _ _ (by decide) 0, compareFlags_of_masked _ _ _ (by decide)]
  rcases Nat.lt_trichotomy a.toNat b.toNat with h | h | h
  · have hne : a ≠ b := by rintro rfl; omega
    simp [BitVec.lt_def, h, hne]
  · obtain rfl := BitVec.eq_of_toNat_eq h
    simp
  · have hne : a ≠ b := by rintro rfl; omega
    simp [BitVec.lt_def, h, hne, Nat.lt_asymm h]

theorem flagG_compareFlags : flagG (compareFlags fl a b) = decide (b < a) := by
  rw [flagG, compareFlags_low _ _ _ (by decide) 0, compareFlags_of_masked _ _ _ (by decide)]
  rcases Nat.lt_trichotomy a.toNat b.toNat with h | h | h
  · simp [BitVec.lt_def, h, Nat.lt_asymm h]
  · simp [BitVec.lt_def, h]
  · simp [BitVec.lt_def, h, Nat.lt_asymm h]

theorem flagL_compareFlags : flagL (compareFlags fl a b) = decide (a < b) := by
  rw [flagL, compareFlags_low _ _ _ (by decide) 0, compareFlags_of_masked _ _ _ (by decide)]
  rcases Nat.lt_trichotomy a.toNat b.toNat with h | h | h
  · simp [BitVec.lt_def, h]
  · simp [BitVec.lt_def, h]
  · simp [BitVec.lt_def, h, Nat.lt_asymm h]

end Sys2Proof.Machine
end

