-- ==== Sys2Proof/Laws/PerInstr.lean ====
section
/-! SUPPORT. Statements about every instruction as syntax, one lemma for each constructor. -/

namespace Sys2Proof.Laws.OpcodeFields

/-- The fields of the instruction's opcode byte are its AA and its identifier, and its C bit is set exactly for CALL
and RETURN (R71, R105). -/
def Statement (i : Instr) : Prop :=
  opAA i.opcodeByte = i.aa ∧ opId i.opcodeByte = i.ident ∧
    opSetsPc i.opcodeByte = i.setsPc

/-- What every constructor's lemma needs: bit 4 of the identifier. -/
theorem of_bit {i : Instr} (h : i.ident.getLsbD 4 = i.setsPc) : Statement i :=
  ⟨opAA_opByte _ _, opId_opByte _ _, (opSetsPc_opByte _ _).trans h⟩

theorem ldi (aa : BitVec 2) (a imm : Byte) : Statement (.ldi aa a imm) :=
  of_bit (by simp [Instr.ident, Instr.setsPc])
theorem prn (aa : BitVec 2) (a : Byte) : Statement (.prn aa a) :=
  of_bit (by simp [Instr.ident, Instr.setsPc])
theorem hlt (aa : BitVec 2) : Statement (.hlt aa) :=
  of_bit (by simp [Instr.ident, Instr.setsPc])
theorem mul (aa : BitVec 2) (a b : Byte) : Statement (.mul aa a b) :=
  of_bit (by simp [Instr.ident, Instr.setsPc])
theorem add (aa : BitVec 2) (a b : Byte) : Statement (.add aa a b) :=
  of_bit (by simp [Instr.ident, Instr.setsPc])
theorem cmp (aa : BitVec 2) (a b : Byte) : Statement (.cmp aa a b) :=
  of_bit (by simp [Instr.ident, Instr.setsPc])
theorem push (aa : BitVec 2) (a : Byte) : Statement (.push aa a) :=
  of_bit (by simp [Instr.ident, Instr.setsPc])
theorem pop (aa : BitVec 2) (a : Byte) : Statement (.pop aa a) :=
  of_bit (by simp [Instr.ident, Instr.setsPc])
theorem call (aa : BitVec 2) (a : Byte) : Statement (.call aa a) :=
  of_bit (by simp [Instr.ident, Instr.setsPc])
theorem ret (aa : BitVec 2) : Statement (.ret aa) :=
  of_bit (by simp [Instr.ident, Instr.setsPc])
theorem st (aa : BitVec 2) (a b : Byte) : Statement (.st aa a b) :=
  of_bit (by simp [Instr.ident, Instr.setsPc])

end Sys2Proof.Laws.OpcodeFields

namespace Sys2Proof.Laws.EncodedLength

/-- The encoding is the opcode byte and as many operand bytes as the format has, at most a triple; the canonical
encoding's AA field says how many (R70). -/
def Statement (i : Instr) : Prop :=
  (encode i).length = 1 + i.operandCount ∧ (encode i).length ≤ Config.fetchBytes ∧
    (i.canonical → (encode i).length = 1 + i.aa.toNat)

/-- What every constructor's lemma needs: a length, and the canonical AA. -/
theorem of_length {i : Instr} (n : Nat) (h : (encode i).length = 1 + n) (hn : i.operandCount = n) (h2 : n ≤ 2) :
    Statement i :=
  ⟨by omega, by unfold Config.fetchBytes; omega, fun hc => by have := eq_of_beq hc; omega⟩

theorem ldi (aa : BitVec 2) (a imm : Byte) : Statement (.ldi aa a imm) := of_length 2 rfl rfl (by decide)
theorem prn (aa : BitVec 2) (a : Byte) : Statement (.prn aa a) := of_length 1 rfl rfl (by decide)
theorem hlt (aa : BitVec 2) : Statement (.hlt aa) := of_length 0 rfl rfl (by decide)
theorem mul (aa : BitVec 2) (a b : Byte) : Statement (.mul aa a b) := of_length 2 rfl rfl (by decide)
theorem add (aa : BitVec 2) (a b : Byte) : Statement (.add aa a b) := of_length 2 rfl rfl (by decide)
theorem cmp (aa : BitVec 2) (a b : Byte) : Statement (.cmp aa a b) := of_length 2 rfl rfl (by decide)
theorem push (aa : BitVec 2) (a : Byte) : Statement (.push aa a) := of_length 1 rfl rfl (by decide)
theorem pop (aa : BitVec 2) (a : Byte) : Statement (.pop aa a) := of_length 1 rfl rfl (by decide)
theorem call (aa : BitVec 2) (a : Byte) : Statement (.call aa a) := of_length 1 rfl rfl (by decide)
theorem ret (aa : BitVec 2) : Statement (.ret aa) := of_length 0 rfl rfl (by decide)
theorem st (aa : BitVec 2) (a b : Byte) : Statement (.st aa a b) := of_length 2 rfl rfl (by decide)

end Sys2Proof.Laws.EncodedLength
end

