-- ==== Sys2Proof/Tests/Slice0.lean ====
section
/-! SUPPORT. The model's own tests (expected results from the spec's files, each named in a comment) and, for every
obligation with hypotheses, a concrete state and operands that meet them. -/

namespace Sys2Proof.Tests

open Sys2Proof Sys2Proof.Machine

/-- The start state of a vector of 95_test_vectors.md: registers, and memory from an address on. -/
def vec (x : Vector Byte 8) (at_ : Nat) (bytes : List Byte) : State :=
  { State.reset with x := x, pc := at_, mem := Memory.writeAll [] at_ bytes }

/-- The state with one more cell of memory set. -/
def withCell (s : State) (a : Nat) (v : Byte) : State := { s with mem := Memory.write s.mem a v }

/-- A field of the next state. -/
def see {α : Type} (f : State → α) : Result → Option α
  | .next s => some (f s)
  | .fault _ => none
  | .refused _ => none

/-- The reset registers with the given R0, R1, R2, EM and SP. -/
def regs (r0 r1 r2 em sp : Byte) : Vector Byte 8 := #v[r0, r1, r2, 0, em, 0, 0, sp]

/-! ## Well-formedness refuses an ill-formed term (R74, R77, R79) -/

theorem test_wellFormed_refuses_opA_8 : (Instr.ldi 2 8 0).wellFormed = false := by decide
theorem test_wellFormed_refuses_opB_8 : (Instr.add 2 0 8).wellFormed = false := by decide
theorem test_wellFormed_accepts_7_and_any_immediate : (Instr.ldi 2 7 0xFF).wellFormed = true := by decide
theorem test_canonical_refuses_alias : (Instr.ldi 1 0 0).canonical = false := by decide
theorem test_full8_refuses_alias : (Instr.hlt 1).dispatches .full8 = false := by decide
theorem test_low6_accepts_alias : (Instr.hlt 1).dispatches .low6 = true := by decide

/-! ## Decoding (30_encoding.md R77, opcode_table.json; the words written out from the encodings) -/

theorem test_decode_ldi : decode [0b10000010, 0b00000111, 0b11110100] = .ok (.ldi 2 7 0xF4) := rfl
theorem test_decode_prn : decode [0b01000111, 0b00000011, 0b11111111] = .ok (.prn 1 3) := rfl
theorem test_decode_hlt : decode [0b00000001, 0b11111111, 0b00001000] = .ok (.hlt 0) := rfl
theorem test_decode_mul : decode [0b10100010, 0b00000001, 0b00000010] = .ok (.mul 2 1 2) := rfl
theorem test_decode_add : decode [0b10100000, 0b00000110, 0b00000111] = .ok (.add 2 6 7) := rfl
theorem test_decode_cmp : decode [0b10100111, 0b00000010, 0b00000101] = .ok (.cmp 2 2 5) := rfl
theorem test_decode_push : decode [0b01000101, 0b00000100, 0b00000000] = .ok (.push 1 4) := rfl
theorem test_decode_pop : decode [0b01000110, 0b00000111, 0b00000000] = .ok (.pop 1 7) := rfl
theorem test_decode_call : decode [0b01010000, 0b00000001, 0b00000000] = .ok (.call 1 1) := rfl
theorem test_decode_ret : decode [0b00010001, 0b00000000, 0b00000000] = .ok (.ret 0) := rfl
theorem test_decode_st : decode [0b10000100, 0b00000000, 0b00000010] = .ok (.st 2 0 2) := rfl

/-- V-DEC-1 and V-DEC-2. -/
theorem test_decode_unknown : decode [0x00, 0, 0] = .error (.unknownInstruction 0x00) ∧
    decode [0x54, 0, 0] = .error (.unknownInstruction 0x54) := ⟨rfl, rfl⟩

theorem test_decode_truncated : decode [0x82, 0] = .error .truncated := rfl

/-- V-DEC-3, V-DEC-4, V-DEC-5: alias bytes. -/
theorem test_decode_aliases : decode [0x02, 3, 9] = .ok (.ldi 0 3 9) ∧ decode [0xC2, 3, 9] = .ok (.ldi 3 3 9) ∧
    decode [0x41, 0, 0] = .ok (.hlt 1) := ⟨rfl, rfl, rfl⟩

/-- V-DEC-7. -/
theorem test_decode_full8 : decodeTriple .full8 0x02 3 9 = .error (.unknownInstruction 0x02) ∧
    decodeTriple .full8 0x82 3 9 = .ok (.ldi 2 3 9) := ⟨rfl, rfl⟩

/-- opcode_table.json's numbering: `LDI R1, 10` is `82 01 0A` (R81), so its word is 0x0A0182. -/
theorem test_decodeTableWord_ldi : decodeTableWord 24 0x0A0182 = some (.ldi 2 1 10) := by decide
theorem test_decodeTableWord_push : decodeTableWord 16 0x0445 = some (.push 1 4) := by decide
theorem test_decodeTableWord_unknown : decodeTableWord 8 0x00 = none := by decide

/-- P1's listing: bytes from assembly. -/
theorem test_encode_P1 : [Instr.ldi 2 0 5, .ldi 2 1 3, .add 2 0 1, .prn 1 0, .hlt 0].flatMap encode =
    [0x82, 0x00, 0x05, 0x82, 0x01, 0x03, 0xA0, 0x00, 0x01, 0x47, 0x00, 0x01] := by decide

/-- R81's texts, as P1 and P3 write them. -/
theorem test_asm : (Instr.ldi 2 0 5).asm = "LDI R0, 5" ∧ (Instr.st 2 0 2).asm = "ST R0, R2" ∧
    (Instr.prn 1 1).asm = "PRN R1" ∧ (Instr.ret 0).asm = "RET" := by decide

/-! ## One step of each instruction (95_test_vectors.md section 2; the vector's name is the test's) -/

theorem test_V_LDI_2_writes_sp : see (fun t => (t.sp, t.pc)) (step (vec (regs 0 0 0 3 0xF4) 0 [0x82, 7, 0x10])) =
    some (0x10, 3) := by decide

theorem test_V_LDI_4_faults : see (fun t => (t.run, t.pc)) (step (vec (regs 0 0 0 3 0xF4) 0 [0x82, 8, 1])) =
    some (.faulted (.registerIndexFault 0 8), 0) := by decide

theorem test_V_PRN_2_ignores_opB : see (fun t => (t.out, t.pc)) (step (vec (regs 0xFF 0 0 3 0xF4) 0 [0x47, 0, 0xFF])) =
    some ([255], 2) := by decide

theorem test_V_PRN_3_faults : see (fun t => (t.run, t.out)) (step (vec (regs 0 0 0 2 0xF4) 0 [0x47, 0x0C])) =
    some (.faulted (.registerIndexFault 0 12), []) := by decide

theorem test_V_ST_1_stores : see (fun t => (t.byte 0x80, t.pc)) (step (vec (regs 0x0A 0 0x80 3 0xF4) 0 [0x84, 0, 2])) =
    some (0x0A, 3) := by decide

theorem test_V_ST_3_uses_latched_operand : see (fun t => (t.byte 1, t.byte 7)) (step (vec (regs 7 1 0 3 0xF4) 0 [0x84, 0, 1])) =
    some (7, 0) := by decide

theorem test_V_ADD_1_wraps : see (fun t => (t.reg 0, t.reg 1)) (step (vec (regs 0xFA 0x0A 0 3 0xF4) 0 [0xA0, 0, 1])) =
    some (0x04, 0x0A) := by decide

theorem test_V_ALU_F_faults_on_opB : see (fun t => (t.run, t.reg 0)) (step (vec (regs 1 0 0 3 0xF4) 0 [0xA0, 0, 8])) =
    some (.faulted (.registerIndexFault 0 8), 1) := by decide

theorem test_V_MUL_3_wraps : see (fun t => (t.reg 0, t.fl)) (step (vec (regs 0xFF 0xFF 0 3 0xF4) 0 [0xA2, 0, 1])) =
    some (0x01, 0) := by decide

theorem test_V_MUL_6_same_register : see (fun t => (t.reg 0, t.pc)) (step (vec (regs 5 0 0 3 0xF4) 0 [0xA2, 0, 0])) =
    some (0x19, 3) := by decide

theorem test_V_CMP_5_is_unsigned : see (fun t => (t.fl, t.pc)) (step (vec (regs 0 0xFF 0 3 0xF4) 0 [0xA7, 0, 1])) =
    some (0x04, 3) := by decide

theorem test_V_CMP_7_clears_previous : see (fun t => (t.fl, t.reg 2))
    (step { vec (regs 0 0 9 3 0xF4) 0 [0xA7, 2, 2] with fl := 0x04 }) = some (0x01, 9) := by decide

theorem test_V_PUSH_2_reaches_em : see (fun t => (t.sp, t.byte 5)) (step (vec (regs 9 0 0 5 6) 0 [0x45, 0])) =
    some (5, 9) := by decide

theorem test_V_PUSH_6_pushes_decremented_sp : see (fun t => (t.sp, t.byte 0xF3)) (step (vec (regs 0 0 0 2 0xF4) 0 [0x45, 7])) =
    some (0xF3, 0xF3) := by decide

theorem test_V_POP_2_no_increment_at_top : see (fun t => (t.reg 2, t.sp))
    (step (withCell (vec (regs 0 0 0 2 0xF4) 0 [0x46, 2]) 0xF4 0x33)) = some (0x33, 0xF4) := by decide

theorem test_V_POP_4_pops_sp : see (fun t => (t.sp, t.pc))
    (step (withCell (vec (regs 0 0 0 2 0xF3) 0 [0x46, 7]) 0xF3 0x10)) = some (0x11, 2) := by decide

theorem test_V_HLT_2_at_253 : see (fun t => (t.run, t.pc)) (step (vec (regs 0 0 0 0 0xF4) 0xFD [1])) =
    some (.halted, 0xFE) := by decide

theorem test_V_HLT_3_faults_at_254 : see (fun t => (t.run, t.pc)) (step (vec (regs 0 0 0 0 0xF4) 0xFE [1])) =
    some (.faulted (.addressFault 0x100 0xFE), 0xFE) := by decide

theorem test_V_CALL_2_wraps_sp : see (fun t => (t.sp, t.byte 0xFF, t.pc)) (step (vec (regs 0 0x40 0 2 0) 0 [0x50, 1])) =
    some (0xFF, 2, 0x40) := by decide

theorem test_V_CALL_4_alias_returns_to_pc_2 : see (fun t => (t.byte 0xF3, t.pc))
    (step (vec (regs 0 0x20 0 3 0xF4) 0 [0x90, 1, 0])) = some (2, 0x20) := by decide

theorem test_V_RET_1_returns : see (fun t => (t.pc, t.sp)) (step (withCell (vec (regs 0 0 0 1 0xF3) 0 [0x11]) 0xF3 8)) =
    some (8, 0xF4) := by decide

theorem test_V_RET_3_wraps_sp : see (fun t => (t.pc, t.sp)) (step (withCell (vec (regs 0 0 0 1 0xFF) 0 [0x11]) 0xFF 0x20)) =
    some (0x20, 0) := by decide

/-- V-PUSH-4: no wrap at SP = 0. -/
theorem test_push_overflows_at_zero : see (·.run) (step (vec (regs 0 0 0 0 0) 0 [0x45, 0])) =
    some (.faulted (.stackOverflow 0 0 0)) := by decide

/-! ## Reset, load and the trace (P1) -/

/-- P1's first trace line: `00 | 82 00 05 | 00 00 00 00 0C 00 00 F4`. -/
theorem test_trace_P1 : (load [0x82, 0, 5, 0x82, 1, 3, 0xA0, 0, 1, 0x47, 0, 1]).toOption.map trace =
    some ⟨0, [some 0x82, some 0, some 5], [0, 0, 0, 0, 0x0C, 0, 0, 0xF4]⟩ := by decide

/-- Log entries 27 and 28: the two points of the text that R81 leaves open, as the model settles them. -/
theorem test_asm_choices : (Instr.ldi 2 1 0x0B).asm = "LDI R1, 11" ∧ (Instr.prn 1 12).asm = "PRN R12" := by decide

/-- R191: an image of 256 bytes is refused at load. -/
theorem test_load_refuses_256 : load (List.replicate 256 0) = .error (.imageTooLong 256) := by
  rw [load, List.length_replicate]
  exact if_neg (by decide)

/-- The host renders 8 as `8` (P1). -/
theorem test_renderedOutput : renderedOutput { State.reset with out := [8, 255] } = ["8", "255"] := by decide

/-- Running from reset with nothing loaded is an UnknownInstruction at 0, as P7's. -/
theorem test_step_from_reset : see (·.run) (step State.reset) = some (.faulted (.unknownInstruction 0 0)) := by decide

/-! ## Witnesses: for every obligation with hypotheses, states and operands that meet them, at the edges of their ranges -/

/-- A running state at `pc` 0 with EM 3, SP at the top and the given code. -/
def run0 (code : List Byte) : State := vec (regs 1 2 0x40 3 0xF4) 0 code

/-- A running state at the last `pc` a cycle can execute at (R102). -/
def atLast (code : List Byte) : State := vec (regs 1 2 0xFE 3 0xF4) 253 code

theorem witness_LoadedRegistersAndMemory : ([] : List Byte).length ≤ 255 ∧ (List.replicate 255 (1 : Byte)).length ≤ 255 :=
  ⟨by decide, by rw [List.length_replicate]⟩

theorem witness_LoadedRunStateFlagsAndPc : (∃ t, load [] = .ok t) ∧ ∃ t, load (List.replicate 255 1) = .ok t :=
  ⟨⟨_, rfl⟩, ⟨_, if_pos (by rw [List.length_replicate]; decide)⟩⟩

theorem witness_MemReadReturnsByteOrFaults : memRead State.reset 255 = .ok 0 ∧
    memRead State.reset 256 = .error (.fault (.addressFault 256 0)) := ⟨rfl, rfl⟩

theorem witness_MemWriteStoresOneCell : (∃ t, memWrite State.reset 255 9 = .ok t) ∧
    memWrite State.reset 256 9 = .error (.fault (.addressFault 256 0)) := ⟨⟨_, rfl⟩, rfl⟩

theorem witness_OneMemoryForCodeDataAndStack : memRead State.reset 255 = .ok 0 ∧ (∀ b, memRead State.reset 256 ≠ .ok b) ∧
    (∃ t tr, memWrite (atLast []) 253 9 = .ok t ∧ fetch t = .ok tr) ∧
    (∃ t tr, memWrite (atLast []) (253 + 1) 9 = .ok t ∧ fetch t = .ok tr) ∧
    ∃ t tr, memWrite (atLast []) (253 + 2) 9 = .ok t ∧ fetch t = .ok tr :=
  ⟨rfl, nofun, ⟨_, _, rfl, rfl⟩, ⟨_, _, rfl, rfl⟩, ⟨_, _, rfl, rfl⟩⟩

/-- A write at SP = 255, which a POP of another register than R7 and a RET read. -/
theorem witness_OneMemory_data_to_stack : (∃ t, memWrite (vec (regs 0 0 0 0 0xFF) 0 []) 255 9 = .ok t) ∧ (1 : Fin 8) ≠ 7 :=
  ⟨⟨_, rfl⟩, by decide⟩

/-- What the fetch after an instruction delivers, beside the new SP and `pc`. -/
def fetchAfter (i : Instr) (s : State) : Option (Byte × Nat × Option Triple) :=
  see (fun t => (t.sp, t.pc, (fetch t).toOption)) (exec i s)

/-- A PUSH onto the opcode, onto opA, and onto opB of the next instruction; 254 is the highest cell it can reach. -/
theorem witness_OneMemory_push_to_code :
    fetchAfter (.push 1 0) (vec (regs 9 0 0 0 254) 251 []) = some (253, 253, some ⟨9, 0, 0⟩) ∧
    fetchAfter (.push 1 0) (vec (regs 9 0 0 0 255) 251 []) = some (254, 253, some ⟨0, 9, 0⟩) ∧
    fetchAfter (.push 1 0) (vec (regs 9 0 0 0 255) 250 []) = some (254, 252, some ⟨0, 0, 9⟩) ∧
    see (·.run) (exec (.push 1 0) (vec (regs 9 0 0 0 255) 250 [])) = some .running := by decide

/-- A CALL whose return address lands on each byte of the instruction it jumps to. -/
theorem witness_OneMemory_call_to_code :
    fetchAfter (.call 1 0) (vec (regs 253 0 0 0 254) 253 []) = some (253, 253, some ⟨255, 0, 0⟩) ∧
    fetchAfter (.call 1 0) (vec (regs 253 0 0 0 255) 253 []) = some (254, 253, some ⟨0, 255, 0⟩) ∧
    fetchAfter (.call 1 0) (vec (regs 253 0 0 0 0) 253 []) = some (255, 253, some ⟨0, 0, 255⟩) := by decide

/-- Exactly three bytes, and an alias; under both keys. -/
theorem witness_DecodeOfEncodeIsTheInstruction : 3 ≤ (encode (.hlt 3) ++ [0xFF, 0xFF]).length ∧
    (Instr.hlt 3).dispatches .low6 = true ∧ encode (.hlt 3) <+: [0xC1, 0xFF, 0xFF] ∧
    (Instr.ldi 2 7 0xFF).dispatches .full8 = true ∧ encode (.ldi 2 7 0xFF) <+: [0x82, 7, 0xFF] := by decide

theorem witness_DecodedTripleBeginsWithTheEncoding : decodeTriple .low6 0xC1 0xFF 0xFF = .ok (.hlt 3) ∧
    decodeTriple .full8 0x82 7 0xFF = .ok (.ldi 2 7 0xFF) := ⟨rfl, rfl⟩

theorem witness_LengthComesFromTheOpcodeByteAlone : decode [0xC2, 0xFF, 0xFF] = .ok (.ldi 3 0xFF 0xFF) ∧
    decode [0x11, 0, 0] = .ok (.ret 0) := ⟨rfl, rfl⟩

/-- A plain instruction, one that sets `pc`, and a faulting one. -/
theorem witness_AliasEncodingsRunTheSameHandler : (run0 []).run = .running ∧
    see (·.run) (exec (.ldi 2 0 5) (run0 [])) = some .running ∧ (Instr.ldi 2 0 5).setsPc = false ∧
    see (·.run) (exec (.call 1 0) (run0 [])) = some .running ∧ (Instr.call 1 0).setsPc = true ∧
    see (·.run) (exec (.ldi 2 8 5) (run0 [])) = some (.faulted (.registerIndexFault 0 8)) := by decide

theorem witness_StepRunsTheDecodedInstruction :
    let s := atLast [0x82, 0, 5]
    s.run = .running ∧ s.pc ≤ 253 ∧ decode [s.byte s.pc, s.byte (s.pc + 1), s.byte (s.pc + 2)] = .ok (.ldi 2 0 5) :=
  ⟨rfl, by decide, rfl⟩

/-- A byte with a row and one without, under both keys. -/
theorem witness_DispatchLooksUpTheLowSixBits :
    (let s := atLast [0xC2, 0, 5]
     s.run = .running ∧ s.pc ≤ 253 ∧ ∃ r ∈ dispatchTable, r.id = (s.byte s.pc).extractLsb' 0 6) ∧
    (let s := atLast [0xFF, 0, 5]
     s.run = .running ∧ s.pc ≤ 253 ∧ ∀ r ∈ dispatchTable, r.id ≠ (s.byte s.pc).extractLsb' 0 6) ∧
    (∃ r ∈ dispatchTable, (0x82 : Byte) = r.canonicalAA ++ r.id) ∧
    ∀ r ∈ dispatchTable, (0xC2 : Byte) ≠ r.canonicalAA ++ r.id := by decide

theorem witness_FetchPastTheEndFaults : (vec (regs 0 0 0 0 0) 254 []).pc = 254 ∧ (vec (regs 0 0 0 0 0) 255 []).pc = 255 ∧
    256 ≤ (vec (regs 0 0 0 0 0) 256 []).pc ∧ (vec (regs 0 0 0 0 0) 254 []).run = .running := by decide

theorem witness_EveryCycleOfARunningEngineEnds : (run0 [1]).run = .running ∧
    { run0 [1] with run := Run.halted }.run ≠ .running := by decide

theorem witness_HaltedAndFaultedAreTerminal : { run0 [1] with run := Run.halted }.run = .halted ∧
    { run0 [1] with run := Run.faulted (.addressFault 256 254) }.run = .faulted (.addressFault 256 254) := by decide

theorem witness_FaultsArePrecise : see (·.run) (step (run0 [0x47, 8])) = some (.faulted (.registerIndexFault 0 8)) := by
  decide

/-- A step that faults and one that does not. -/
theorem witness_FirstFaultInPriorityOrder :
    see (·.run) (step (run0 [0xA0, 9, 8])) = some (.faulted (.registerIndexFault 0 9)) ∧
    firstFault (run0 [0xA0, 9, 8]) = some (.registerIndexFault 0 9) ∧
    see (·.run) (step (run0 [0xA0, 0, 1])) = some .running ∧ firstFault (run0 [0xA0, 0, 1]) = none := by decide

theorem witness_OnlyHaltHalts : see (·.run) (step (atLast [0xC1])) = some .halted ∧
    see (·.run) (step (atLast [0x11])) = some .running := by decide

/-- The lowest SP that a PUSH accepts. -/
theorem witness_PushStoresBelowTheStackPointer :
    let s := vec (regs 9 0 0 5 6) 0 [0x45, 0]
    s.em.toNat < s.sp.toNat := by decide

/-- SP = EM, and SP = 0. -/
theorem witness_PushOverflowsAtTheEndMarker : (vec (regs 9 0 0 5 5) 0 [0x45, 0]).sp.toNat ≤ (vec (regs 9 0 0 5 5) 0 [0x45, 0]).em.toNat ∧
    (vec (regs 9 0 0 0 0) 0 [0x45, 0]).sp.toNat ≤ (vec (regs 9 0 0 0 0) 0 [0x45, 0]).em.toNat := by decide

/-- The store at EM itself, with a byte just below EM, and the highest store a PUSH can make. -/
theorem witness_PushNeverStoresBelowTheEndMarker :
    see (fun t => (t.sp, t.byte 5)) (exec (.push 1 0) (vec (regs 9 0 0 5 6) 0 [])) = some (5, 9) ∧
    4 < (vec (regs 9 0 0 5 6) 0 []).em.toNat ∧
    see (fun t => (t.sp, t.byte 254)) (exec (.push 1 0) (vec (regs 9 0 0 5 0xFF) 0 [])) = some (254, 9) := by decide

/-- Both sides of SP_TOP, for an ordinary register and for R7. -/
theorem witness_PopLoadsFromTheStackPointer : (1 : Fin 8) ≠ 7 ∧
    see (fun t => (t.reg 1, t.sp)) (exec (.pop 1 1) (vec (regs 0 0 0 2 0xF3) 0 [])) = some (0, 0xF4) ∧
    see (fun t => (t.reg 1, t.sp)) (exec (.pop 1 1) (vec (regs 0 0 0 2 0xF4) 0 [])) = some (0, 0xF4) ∧
    see (·.sp) (exec (.pop 1 7) (withCell (vec (regs 0 0 0 2 0) 0 []) 0 0xF3)) = some 0xF4 ∧
    see (·.sp) (exec (.pop 1 7) (withCell (vec (regs 0 0 0 2 0) 0 []) 0 0xF4)) = some 0xF4 := by decide

theorem witness_CallPushesTheReturnAddressAndJumps : (atLast []).pc ≤ 253 := by decide

theorem witness_IllegalRegisterOperands : 8 ≤ (8 : Byte).toNat ∧ 8 ≤ (255 : Byte).toNat ∧
    Instr.call 1 8 ∈ [Instr.ldi 1 8 0, .prn 1 8, .st 1 8 0, .add 1 8 0, .mul 1 8 0, .cmp 1 8 0, .push 1 8, .pop 1 8, .call 1 8] ∧
    Instr.cmp 2 (regByte 7) 255 ∈ [Instr.st 2 (regByte 7) 255, .add 2 (regByte 7) 255, .mul 2 (regByte 7) 255,
      .cmp 2 (regByte 7) 255] := by decide

theorem witness_SpEdgeRefuseDiffersOnlyAtTheEdge : (vec (regs 0 0 0 0 0) 0 []).sp = 0 ∧ (vec (regs 0 0 0 0 1) 0 []).sp ≠ 0 ∧
    (vec (regs 0 0 0 0 0xFF) 0 []).sp = 0xFF ∧ (vec (regs 0 0 0 0 0xFE) 0 []).sp ≠ 0xFF := by decide

/-- POP of a register other than R7 may write that register and R7 only. -/
theorem witness_RegisterWritesAreThoseOfTheAccessTable : see (·.run) (exec (.pop 1 0) (run0 [])) = some .running ∧
    regByte 1 ∉ registerWrites (.pop 1 0) := by decide

/-- A store whose address is 0x40, seen from the byte beside it. -/
theorem witness_MemoryWritesAreThoseOfTheAccessTable : see (fun t => t.byte 0x40) (exec (.st 2 0 2) (run0 [])) = some 1 ∧
    storeAddress (run0 []) (.st 2 0 2) = some 0x40 ∧ storeAddress (run0 []) (.st 2 0 2) ≠ some 0x41 := by decide

theorem witness_UnreadRegistersDoNotMatter : regByte 4 ∉ registerReads (.call 1 0) ∧
    see (·.pc) (exec (.call 1 0) (run0 [])) = some 1 := by decide

theorem witness_FlagsAndOutputAreNeverRead : see (·.fl) (step (run0 [0xA7, 0, 1])) = some 4 ∧
    see (·.out) (step (run0 [0x47, 0])) = some [1] := by decide

/-- Every clause: an opcode that is not CMP, one that is, and PRN. -/
theorem witness_OnlyCmpWritesFlagsOnlyPrnEmits :
    see (·.fl) (step (run0 [0xA0, 0, 1])) = some 0 ∧ ((run0 [0xA0, 0, 1]).byte 0).extractLsb' 0 6 ≠ 0x27 ∧
    see (·.out) (step (run0 [0x47, 0])) = some [1] ∧ ((run0 [0x47, 0]).byte 0).extractLsb' 0 6 = 0x07 := by decide

/-- A fault, a plain advance, and a jump to 255. -/
theorem witness_PcMovesOnlyByAdvanceCallAndReturn :
    see (fun t => (t.run, t.pc)) (exec (.prn 1 8) (atLast [])) = some (.faulted (.registerIndexFault 253 8), 253) ∧
    see (fun t => (t.run, t.pc)) (exec (.hlt 0) (atLast [])) = some (.halted, 254) ∧ (Instr.hlt 0).setsPc = false ∧
    see (fun t => (t.run, t.pc)) (exec (.call 1 0) (vec (regs 255 0 0 0 0) 0 [])) = some (.running, 255) ∧
    (Instr.call 1 0).setsPc = true := by decide

/-- The advance that lands exactly on 256, and the longest one. -/
theorem witness_PcDoesNotWrap : (atLast []).run = .running ∧ (Instr.ldi 2 0 5).setsPc = false ∧
    see (fun t => (t.run, t.pc)) (exec (.ldi 2 0 5) (atLast [])) = some (.running, 256) ∧
    256 ≤ (atLast []).pc + 1 + (Instr.ldi 2 0 5).aa.toNat ∧
    see (fun t => (t.run, t.pc)) (exec (.ldi 3 0 5) (atLast [])) = some (.running, 257) := by decide

/-- SP at both ends of the range. -/
theorem witness_PushThenPopRestores :
    (let s := vec (regs 9 0 0 5 6) 0 []
     s.em.toNat < s.sp.toNat ∧ s.sp.toNat ≤ 0xF4) ∧
    (let s := vec (regs 9 0 0 5 0xF4) 0 []
     s.em.toNat < s.sp.toNat ∧ s.sp.toNat ≤ 0xF4) := by decide

/-- Two pushes into the last two cells above EM, then two pops. -/
theorem witness_PushesThenPopsReverse :
    let ps : List (BitVec 2 × Fin 8) := [(1, 0), (1, 7)]
    let qs : List (BitVec 2 × Fin 8) := [(1, 2), (1, 3)]
    let s := vec (regs 9 8 0 5 7) 0 []
    s.run = .running ∧ qs.length = ps.length ∧ (∀ q ∈ qs, q.2 ≠ 7) ∧ s.em.toNat + ps.length ≤ s.sp.toNat ∧
      s.sp.toNat ≤ 0xF4 ∧ (qs.map Prod.snd).Nodup ∧ ps[1]? = some (1, 7) ∧ qs.reverse[1]? = some (1, 2) := by decide

/-- Room for exactly one push, and none where SP is below EM; and the load of the longest image that leaves room. -/
theorem witness_PushCapacity :
    (let s := vec (regs 9 0 0 5 6) 0 []
     s.run = .running ∧ [((1 : BitVec 2), (0 : Fin 8))].length ≤ s.sp.toNat - s.em.toNat ∧
      s.sp.toNat - s.em.toNat < [((1 : BitVec 2), (0 : Fin 8)), (1, 7)].length) ∧
    (let s := vec (regs 9 0 0 6 5) 0 []
     s.run = .running ∧ s.sp.toNat - s.em.toNat < [((1 : BitVec 2), (0 : Fin 8))].length) ∧
    ∃ s, load (List.replicate 243 1) = .ok s :=
  ⟨by decide, by decide, ⟨_, if_pos (by rw [List.length_replicate]; decide)⟩⟩

/-- The state right after the CALL is one that RET may start from. -/
theorem witness_CallThenReturnResumes : ∃ s t u : State, s.pc ≤ 253 ∧ exec (.call 1 (regByte 0)) s = .next t ∧ u.sp = t.sp ∧
    u.byte u.sp.toNat = t.byte t.sp.toNat := ⟨atLast [], _, _, by decide, rfl, rfl, rfl⟩

/-- A store to the storing instruction's own opA byte (V-ST-3). -/
theorem witness_StoreIsSeen_in_its_own_bytes : ∃ s t, s.run = .running ∧ s.pc ≤ 253 ∧
    decode [s.byte s.pc, s.byte (s.pc + 1), s.byte (s.pc + 2)] = .ok (.st 2 (regByte 0) (regByte 1)) ∧
    step s = .next t ∧ (s.reg 1).toNat = s.pc + 1 ∧ t.byte (s.pc + 1) = s.reg 0 :=
  ⟨vec (regs 7 1 0 3 0xF4) 0 [0x84, 0, 1], _, rfl, by decide, rfl, rfl, rfl, rfl⟩

/-- A store to the address of the next instruction. -/
theorem witness_StoreIsSeenByTheNextFetch : ∃ s t tr, s.run = .running ∧ s.pc ≤ 253 ∧
    decode [s.byte s.pc, s.byte (s.pc + 1), s.byte (s.pc + 2)] = .ok (.st 2 (regByte 0) (regByte 1)) ∧
    step s = .next t ∧ fetch t = .ok tr ∧ (s.reg 1).toNat = t.pc ∧ tr.op = s.reg 0 :=
  ⟨vec (regs 9 3 0 3 0xF4) 0 [0x84, 0, 1], _, _, rfl, by decide, rfl, rfl, rfl, rfl, rfl⟩

theorem witness_FuelIsNoEndOfARun : (∃ t, runFuel 1 (run0 [1]) = .ended t) ∧ ∃ t, runFuel 0 (run0 [1]) = .outOfFuel t :=
  ⟨⟨_, rfl⟩, ⟨_, rfl⟩⟩

theorem witness_StatusAndExitCodesTellTheEndsApart : ∃ c : Config.ExitCodes, c.addressFault = 1 :=
  ⟨⟨1, 2, 3, 4, by decide, by decide⟩, rfl⟩

theorem witness_TraceShowsTheStateACycleStartsFrom : (atLast [0x47, 0, 0]).pc ≤ 253 ∧
    ∃ tr, fetch (atLast [0x47, 0, 0]) = .ok tr := ⟨by decide, ⟨_, rfl⟩⟩

theorem witness_FetchWordIsRunNext : decodeTableWord 24 0xFF0782 = some (.ldi 2 7 0xFF) ∧
    decodeTableWord 8 0x11 = some (.ret 0) := by decide

theorem witness_ResetAndLoadMeetTheInvariant : ∃ t, load [0x01] = .ok t := ⟨_, rfl⟩

/-- Reset meets the invariant, and a step from it answers a next state. -/
theorem witness_StepKeepsTheInvariant : Inv State.reset ∧ ∃ t, step State.reset = .next t :=
  ⟨⟨by decide, by decide, by decide, nofun⟩, ⟨_, rfl⟩⟩

end Sys2Proof.Tests
end

section
/-! SUPPORT. The answers of a handler, of `exec` and of `step`, each as a relation that a proof can take apart by cases,
and the settled statements of 10_state.md. -/

namespace Sys2Proof.Machine

/-! ## What a handler that completes has done -/

/-- `Completes s i u`: the handler of `i`, begun in `s`, completes with the state `u`. One rule for each instruction;
`handler_ok_iff` ties it to the model. -/
inductive Completes (s : State) : Instr → State → Prop where
  | ldi (aa : BitVec 2) (r : Fin 8) (imm : Byte) : Completes s (.ldi aa (regByte r) imm) (s.setReg r imm)
  | prn (aa : BitVec 2) (r : Fin 8) : Completes s (.prn aa (regByte r)) (s.emit (s.reg r))
  | hlt (aa : BitVec 2) : Completes s (.hlt aa) s
  | mul (aa : BitVec 2) (ra rb : Fin 8) :
    Completes s (.mul aa (regByte ra) (regByte rb)) (s.setReg ra (aluMul (s.reg ra) (s.reg rb)))
  | add (aa : BitVec 2) (ra rb : Fin 8) :
    Completes s (.add aa (regByte ra) (regByte rb)) (s.setReg ra (aluAdd (s.reg ra) (s.reg rb)))
  | cmp (aa : BitVec 2) (ra rb : Fin 8) :
    Completes s (.cmp aa (regByte ra) (regByte rb)) (s.setFl (compareFlags s.fl (s.reg ra) (s.reg rb)))
  | st (aa : BitVec 2) (ra rb : Fin 8) :
    Completes s (.st aa (regByte ra) (regByte rb)) (s.store (s.reg rb).toNat (s.reg ra))
  | push (aa : BitVec 2) (r : Fin 8) (h : s.em.toNat < s.sp.toNat) : Completes s (.push aa (regByte r))
      ((s.setReg Config.spReg (s.sp - 1)).store (s.sp - 1).toNat ((s.setReg Config.spReg (s.sp - 1)).reg r))
  | pop (aa : BitVec 2) (r : Fin 8) :
    Completes s (.pop aa (regByte r)) (popIncrement (s.setReg r (s.byte s.sp.toNat)))
  | call (aa : BitVec 2) (r : Fin 8) : Completes s (.call aa (regByte r))
      (((s.setReg Config.spReg (s.sp - 1)).store (s.sp - 1).toNat (returnAddress s)).setPc
        ((s.setReg Config.spReg (s.sp - 1)).reg r).toNat)
  | ret (aa : BitVec 2) :
    Completes s (.ret aa) ((s.setReg Config.spReg (s.sp + 1)).setPc (s.byte s.sp.toNat).toNat)

theorem handler_ok_iff {s u : State} {i : Instr} : handler s i = .ok u ↔ Completes s i u := by
  constructor
  · intro h
    rcases handler_ok_cases h with ⟨aa, r, imm, rfl, rfl⟩ | ⟨aa, r, rfl, rfl⟩ | ⟨aa, rfl, rfl⟩ |
      ⟨aa, ra, rb, rfl, rfl⟩ | ⟨aa, ra, rb, rfl, rfl⟩ | ⟨aa, ra, rb, rfl, rfl⟩ | ⟨aa, ra, rb, rfl, rfl⟩ |
      ⟨aa, r, rfl, hlt, rfl⟩ | ⟨aa, r, rfl, rfl⟩ | ⟨aa, r, rfl, rfl⟩ | ⟨aa, rfl, rfl⟩
    exacts [.ldi aa r imm, .prn aa r, .hlt aa, .mul aa ra rb, .add aa ra rb, .cmp aa ra rb, .st aa ra rb,
      .push aa r hlt, .pop aa r, .call aa r, .ret aa]
  · intro h
    cases h with
    | ldi aa r imm => exact handler_ldi s aa r imm
    | prn aa r => exact handler_prn s aa r
    | hlt aa => rfl
    | mul aa ra rb => exact handler_mul s aa ra rb
    | add aa ra rb => exact handler_add s aa ra rb
    | cmp aa ra rb => exact handler_cmp s aa ra rb
    | st aa ra rb => exact handler_st s aa ra rb
    | push aa r h => exact handler_push_ok s aa r h
    | pop aa r => exact handler_pop s aa r
    | call aa r => exact handler_call s aa r
    | ret aa => exact handler_ret s aa

/-! ## What a handler that faults has met (R164, R163) -/

/-- An instruction with an illegal register operand faults on the first one, whatever the registers hold. -/
theorem handler_of_firstRegisterFault {s : State} {i : Instr} {f : FaultRecord}
    (h : firstRegisterFault s.pc i.regOperands = some f) : handler s i = .error (.fault f) := by
  have one : ∀ a : Byte, firstRegisterFault s.pc [a] = some f → regOperand s a = .error (.fault f) := by
    intro a h
    by_cases ha : 8 ≤ a.toNat
    · simpa [firstRegisterFault, ha, regOperand_of_le ha] using h
    · simp [firstRegisterFault, ha] at h
  have two : ∀ a b : Byte, firstRegisterFault s.pc [a, b] = some f → regOperand s a = .error (.fault f) ∨
      ∃ r, regOperand s a = .ok r ∧ regOperand s b = .error (.fault f) := by
    intro a b h
    rcases regOperand_cases s a with ⟨r, rfl, hr⟩ | ⟨ha, -⟩
    · exact .inr ⟨r, hr, one b (by simpa [firstRegisterFault, List.find?_cons] using h)⟩
    · exact .inl (one a (by simpa [firstRegisterFault, ha] using h))
  cases i with
  | ldi _ a _ | prn _ a | push _ a | pop _ a => simp [handler, one a h, bind, Except.bind]
  | call _ a => simp [handler, callHandler, one a h, bind, Except.bind]
  | hlt | ret => simp [firstRegisterFault, Instr.regOperands] at h
  | mul _ a b | add _ a b | cmp _ a b | st _ a b =>
    rcases two a b h with h | ⟨r, hr, hb⟩
    · simp [handler, h, bind, Except.bind]
    · simp [handler, hr, hb, bind, Except.bind]

/-- A handler's fault is that of its first illegal register operand, or a PUSH's overflow. -/
theorem handler_fault_cases {s : State} {i : Instr} {f : FaultRecord} (h : handler s i = .error (.fault f)) :
    firstRegisterFault s.pc i.regOperands = some f ∨
      ∃ aa r, i = .push aa (regByte r) ∧ s.sp.toNat ≤ s.em.toNat ∧ f = .stackOverflow s.pc s.sp s.em := by
  rcases handler_cases s i with ⟨u, hu, -⟩ | ⟨b, hb, h8, -⟩ | ⟨aa, r, rfl, hle, ho⟩
  · cases hu.symm.trans h
  · left
    cases hf : firstRegisterFault s.pc i.regOperands with
    | some g => cases (handler_of_firstRegisterFault hf).symm.trans h; rfl
    | none => simpa [h8] using List.find?_eq_none.1 (Option.map_eq_none_iff.1 hf) b hb
  · cases ho.symm.trans h
    exact .inr ⟨aa, r, rfl, hle, rfl⟩

/-! ## What `exec` and `step` answer -/

/-- A next state of `exec` ends the cycle of a handler that completed, or that of one that faulted. -/
theorem exec_next_cases {i : Instr} {s t : State} (h : exec i s = .next t) :
    (∃ u, Completes s i u ∧ t = haltIf (signalsHalt i) (advance i.opcodeByte u)) ∨
      ∃ f, handler s i = .error (.fault f) ∧ t = raise s f := by
  rcases exec_cases i s with ⟨u, hu, he⟩ | ⟨f, hf, he⟩
  · cases he.symm.trans h
    exact .inl ⟨u, handler_ok_iff.1 hu, rfl⟩
  · cases he.symm.trans h
    exact .inr ⟨f, hf, rfl⟩

/-- What an instruction answers when it completes. -/
theorem Completes.exec {i : Instr} {s u : State} (h : Completes s i u) :
    Machine.exec i s = .next (haltIf (signalsHalt i) (advance i.opcodeByte u)) :=
  exec_of_handler_ok (handler_ok_iff.2 h)

/-- The bytes that a fetch at `pc` delivers to the decoder. -/
abbrev fetchedBytes (s : State) : List Byte := [s.byte s.pc, s.byte (s.pc + 1), s.byte (s.pc + 2)]

/-- A next state of `step` comes from a running engine: the instruction at `pc` answers it, or the fetch or the decoder
faulted. -/
theorem step_next_cases {s t : State} (h : step s = .next t) :
    (s.pc ≤ 253 ∧ ∃ i, decode (fetchedBytes s) = .ok i ∧ exec i s = .next t) ∨
      (253 < s.pc ∧ t = raise s (.addressFault (max s.pc 256) s.pc)) ∨
      (s.pc ≤ 253 ∧ decode (fetchedBytes s) = .error (.unknownInstruction (s.byte s.pc)) ∧
        t = raise s (.unknownInstruction (s.byte s.pc) s.pc)) := by
  rcases step_cases (run_of_step_next h) with ⟨hle, i, hd, he⟩ | ⟨hgt, he⟩ | ⟨hle, hd, he⟩
  · exact .inl ⟨hle, i, hd, he ▸ h⟩
  · cases he.symm.trans h
    exact .inr (.inl ⟨hgt, rfl⟩)
  · cases he.symm.trans h
    exact .inr (.inr ⟨hle, hd, rfl⟩)

theorem step_of_decode_ok {s : State} {i : Instr} (hr : s.run = .running) (hle : s.pc ≤ 253)
    (hd : decode (fetchedBytes s) = .ok i) : step s = exec i s := by
  rcases step_cases hr with ⟨-, j, hj, he⟩ | ⟨hgt, -⟩ | ⟨-, hj, -⟩
  · cases hd.symm.trans hj
    exact he
  · omega
  · cases hd.symm.trans hj

theorem step_of_pc_gt {s : State} (hr : s.run = .running) (hgt : 253 < s.pc) :
    step s = .next (raise s (.addressFault (max s.pc 256) s.pc)) := by
  rcases step_cases hr with ⟨hle, -⟩ | ⟨-, he⟩ | ⟨hle, -⟩
  · omega
  · exact he
  · omega

theorem step_of_decode_error {s : State} {e : Reject} (hr : s.run = .running) (hle : s.pc ≤ 253)
    (hd : decode (fetchedBytes s) = .error e) :
    step s = .next (raise s (.unknownInstruction (s.byte s.pc) s.pc)) := by
  rcases step_cases hr with ⟨-, j, hj, -⟩ | ⟨hgt, -⟩ | ⟨-, -, he⟩
  · cases hd.symm.trans hj
  · omega
  · exact he

/-! ## POP's increment as one write of SP -/

theorem popIncrement_eq (s : State) :
    popIncrement s = s.setReg Config.spReg (if s.sp < Config.spTop then s.sp + 1 else s.sp) := by
  unfold popIncrement
  split
  · rfl
  · exact (State.setReg_reg s Config.spReg).symm

/-! ## Another value in one register (R25) -/

/-- Writes of two different registers commute. -/
theorem State.setReg_comm (s : State) {q r : Fin 8} (h : q ≠ r) (v w : Byte) :
    (s.setReg q v).setReg r w = (s.setReg r w).setReg q v := by
  have hx : ∀ p, ((s.setReg q v).setReg r w).reg p = ((s.setReg r w).setReg q v).reg p := by
    intro p
    simp only [State.reg_setReg]
    split
    · simp [*, Ne.symm h]
    · rfl
  exact congrArg (fun x => { s with x := x }) (State.x_eq_of_reg_eq hx)

/-- `t'` is `t`, up to the value `v` in register `q`. -/
def AgreeButReg (q : Fin 8) (v : Byte) (t t' : State) : Prop := t' = t ∨ t' = t.setReg q v

/-- An update that commutes with the write of `q` keeps the agreement. -/
theorem AgreeButReg.map {q : Fin 8} {v : Byte} {t t' : State} (h : AgreeButReg q v t t') {g : State → State}
    (hg : g (t.setReg q v) = (g t).setReg q v) : AgreeButReg q v (g t) (g t') := by
  rcases h with rfl | rfl
  · exact .inl rfl
  · exact .inr hg

/-- Writing one register in both states: the write hides the difference, or leaves it. -/
theorem agreeButReg_setReg (s : State) (q r : Fin 8) (v w : Byte) :
    AgreeButReg q v (s.setReg r w) ((s.setReg q v).setReg r w) := by
  by_cases h : q = r
  · subst h
    exact .inl (State.setReg_setReg s q v w)
  · exact .inr (s.setReg_comm h v w)

theorem popIncrement_setReg (s : State) {q : Fin 8} (hq : q ≠ Config.spReg) (v : Byte) :
    popIncrement (s.setReg q v) = (popIncrement s).setReg q v := by
  rw [popIncrement_eq, popIncrement_eq, State.sp_setReg_of_ne _ _ _ hq, State.setReg_comm _ hq]

theorem advance_setReg (op : Byte) (s : State) (q : Fin 8) (v : Byte) :
    advance op (s.setReg q v) = (advance op s).setReg q v := by
  unfold advance
  split <;> rfl

theorem haltIf_setReg (h : Bool) (s : State) (q : Fin 8) (v : Byte) :
    haltIf h (s.setReg q v) = (haltIf h s).setReg q v := by
  unfold haltIf
  split <;> rfl

/-- A handler that completes also completes with another value in a register it does not read. -/
theorem Completes.setReg_of_unread {s u : State} {i : Instr} {q : Fin 8} (v : Byte) (h : Completes s i u)
    (hq : regByte q ∉ registerReads i) : ∃ u', Completes (s.setReg q v) i u' ∧ AgreeButReg q v u u' := by
  cases h with
  | ldi aa r imm => exact ⟨_, .ldi aa r imm, agreeButReg_setReg ..⟩
  | hlt aa => exact ⟨_, .hlt aa, .inr rfl⟩
  | prn aa r =>
    have hr : r ≠ q := by simpa [registerReads, regByte_inj, eq_comm] using hq
    exact ⟨_, .prn aa r, .inr (by rw [State.reg_setReg_of_ne _ _ _ _ hr]; rfl)⟩
  | mul aa ra rb | add aa ra rb =>
    obtain ⟨ha, hb⟩ : ra ≠ q ∧ rb ≠ q := by simpa [registerReads, regByte_inj, eq_comm] using hq
    refine ⟨_, by constructor, ?_⟩
    rw [State.reg_setReg_of_ne _ _ _ _ ha, State.reg_setReg_of_ne _ _ _ _ hb]
    exact agreeButReg_setReg ..
  | cmp aa ra rb | st aa ra rb =>
    obtain ⟨ha, hb⟩ : ra ≠ q ∧ rb ≠ q := by simpa [registerReads, regByte_inj, eq_comm] using hq
    refine ⟨_, by constructor, .inr ?_⟩
    rw [State.reg_setReg_of_ne _ _ _ _ ha, State.reg_setReg_of_ne _ _ _ _ hb]
    rfl
  | push aa r hlt =>
    obtain ⟨hr, hsp, hem⟩ : r ≠ q ∧ q ≠ Config.spReg ∧ q ≠ Config.emReg := by
      simpa [registerReads, regByte_inj, eq_comm] using hq
    have hs : (s.setReg q v).sp = s.sp := s.sp_setReg_of_ne _ _ hsp
    have he : (s.setReg q v).em = s.em := s.reg_setReg_of_ne _ _ _ (Ne.symm hem)
    refine ⟨_, .push aa r (by rwa [hs, he]), .inr ?_⟩
    rw [hs, s.setReg_comm hsp, State.reg_setReg_of_ne _ _ _ _ hr]
    rfl
  | pop aa r =>
    have hsp : q ≠ Config.spReg := by simpa [registerReads, regByte_inj] using hq
    refine ⟨_, .pop aa r, ?_⟩
    rw [s.sp_setReg_of_ne _ _ hsp]
    exact (agreeButReg_setReg ..).map (popIncrement_setReg _ hsp v)
  | call aa r =>
    obtain ⟨hr, hsp⟩ : r ≠ q ∧ q ≠ Config.spReg := by simpa [registerReads, regByte_inj, eq_comm] using hq
    refine ⟨_, .call aa r, .inr ?_⟩
    rw [s.sp_setReg_of_ne _ _ hsp, s.setReg_comm hsp, State.reg_setReg_of_ne _ _ _ _ hr]
    rfl
  | ret aa =>
    have hsp : q ≠ Config.spReg := by simpa [registerReads, regByte_inj] using hq
    refine ⟨_, .ret aa, .inr ?_⟩
    rw [s.sp_setReg_of_ne _ _ hsp, s.setReg_comm hsp]
    rfl

/-- A handler that faults meets the same fault with another value in a register it does not read. -/
theorem handler_fault_setReg_of_unread {s : State} {i : Instr} {f : FaultRecord} {q : Fin 8} (v : Byte)
    (h : handler s i = .error (.fault f)) (hq : regByte q ∉ registerReads i) :
    handler (s.setReg q v) i = .error (.fault f) := by
  rcases handler_fault_cases h with hf | ⟨aa, r, rfl, hle, rfl⟩
  · exact handler_of_firstRegisterFault hf
  · obtain ⟨-, hsp, hem⟩ : q ≠ r ∧ q ≠ Config.spReg ∧ q ≠ Config.emReg := by
      simpa [registerReads, regByte_inj] using hq
    have hs : (s.setReg q v).sp = s.sp := s.sp_setReg_of_ne _ _ hsp
    have he : (s.setReg q v).em = s.em := s.reg_setReg_of_ne _ _ _ (Ne.symm hem)
    simpa [hs, he] using handler_push_overflow (s.setReg q v) aa r (by rwa [hs, he])

/-- An instruction answers the same with another value in a register it does not read, up to that register. -/
theorem exec_setReg_of_unread {i : Instr} {s t : State} {q : Fin 8} (v : Byte)
    (hq : regByte q ∉ registerReads i) (h : exec i s = .next t) :
    ∃ t', exec i (s.setReg q v) = .next t' ∧ AgreeButReg q v t t' := by
  rcases exec_next_cases h with ⟨u, hu, rfl⟩ | ⟨f, hf, rfl⟩
  · obtain ⟨u', hu', ha⟩ := hu.setReg_of_unread v hq
    exact ⟨_, hu'.exec, (ha.map (advance_setReg ..)).map (haltIf_setReg ..)⟩
  · exact ⟨_, exec_of_handler_fault (handler_fault_setReg_of_unread v hf hq), .inr rfl⟩

/-- Settles O39: by `exec_setReg_of_unread`, whose two cases are the two values the register may hold. -/
theorem unreadRegistersDoNotMatter : Obligations.UnreadRegistersDoNotMatter := by
  intro i s t q v hq h
  obtain ⟨u, hu, rfl | rfl⟩ := exec_setReg_of_unread v hq h
  · exact ⟨_, hu, rfl, rfl, rfl, rfl, rfl, fun _ _ => rfl, .inl rfl⟩
  · exact ⟨_, hu, rfl, rfl, rfl, rfl, rfl, fun p hp => t.reg_setReg_of_ne _ _ _ (by simpa using hp),
      .inr (t.reg_setReg_same _ _)⟩

/-! ## Another FL and another output (R34, R39, R176) -/

/-- The updates from `s` to `t` and from `s'` to `t'` do the same: equal registers, `pc`, memory and `run` result, the
same values are emitted, and FL is left alone in both or gets the same E, G and L. -/
structure SameEffect (s s' t t' : State) : Prop where
  x : t'.x = t.x
  pc : t'.pc = t.pc
  mem : t'.mem = t.mem
  run : t'.run = t.run
  out : ∃ vs, t.out = s.out ++ vs ∧ t'.out = s'.out ++ vs
  fl : (t.fl = s.fl ∧ t'.fl = s'.fl) ∨ ∀ n, n < 3 → t'.fl.getLsbD n = t.fl.getLsbD n

/-- The end of a cycle keeps what two handlers have in common. -/
theorem SameEffect.endOfCycle {s s' u u' : State} (h : SameEffect s s' u u') (halting : Bool) (op : Byte) :
    SameEffect s s' (haltIf halting (advance op u)) (haltIf halting (advance op u')) where
  x := by simp [h.x]
  pc := by simp [advance_pc, h.pc]
  mem := by simp [h.mem]
  run := by simp [haltIf_run, h.run]
  out := by simpa using h.out
  fl := by simpa using h.fl

section
variable {s t u : State} {i : Instr} (fl' : Byte) (out' : List Byte)

/-- A handler reads neither FL nor `out`, but for CMP, which keeps FL's bits 7:3. -/
theorem Completes.withFlOut (h : Completes s i u) :
    ∃ u', Completes { s with fl := fl', out := out' } i u' ∧ SameEffect s { s with fl := fl', out := out' } u u' := by
  cases h with
  | ldi | hlt | mul | add | st | call | ret =>
    refine ⟨_, by constructor, ?_⟩
    exact ⟨rfl, rfl, rfl, rfl, ⟨[], by simp, by simp⟩, .inl ⟨rfl, rfl⟩⟩
  | push aa r hlt =>
    exact ⟨_, .push aa r hlt, rfl, rfl, rfl, rfl, ⟨[], by simp, by simp⟩, .inl ⟨rfl, rfl⟩⟩
  | pop aa r =>
    refine ⟨_, .pop aa r, ?_⟩
    rw [popIncrement_eq, popIncrement_eq]
    exact ⟨rfl, rfl, rfl, rfl, ⟨[], by simp, by simp⟩, .inl ⟨rfl, rfl⟩⟩
  | prn aa r => exact ⟨_, .prn aa r, rfl, rfl, rfl, rfl, ⟨[s.reg r], rfl, rfl⟩, .inl ⟨rfl, rfl⟩⟩
  | cmp aa ra rb =>
    exact ⟨_, .cmp aa ra rb, rfl, rfl, rfl, rfl, ⟨[], by simp, by simp⟩,
      .inr fun _ hn => compareFlags_low _ _ _ hn _⟩

theorem handler_fault_withFlOut {f : FaultRecord} (h : handler s i = .error (.fault f)) :
    handler { s with fl := fl', out := out' } i = .error (.fault f) := by
  rcases handler_fault_cases h with hf | ⟨aa, r, rfl, hle, rfl⟩
  · exact handler_of_firstRegisterFault hf
  · exact handler_push_overflow _ aa r hle

theorem sameEffect_raise (f : FaultRecord) :
    SameEffect s { s with fl := fl', out := out' } (raise s f) (raise { s with fl := fl', out := out' } f) :=
  ⟨rfl, rfl, rfl, rfl, ⟨[], by simp, by simp⟩, .inl ⟨rfl, rfl⟩⟩

theorem exec_withFlOut (h : exec i s = .next t) : ∃ t', exec i { s with fl := fl', out := out' } = .next t' ∧
    SameEffect s { s with fl := fl', out := out' } t t' := by
  rcases exec_next_cases h with ⟨u, hu, rfl⟩ | ⟨f, hf, rfl⟩
  · obtain ⟨u', hu', he⟩ := hu.withFlOut fl' out'
    exact ⟨_, hu'.exec, he.endOfCycle _ _⟩
  · exact ⟨_, exec_of_handler_fault (handler_fault_withFlOut fl' out' hf), sameEffect_raise fl' out' f⟩

theorem step_withFlOut (h : step s = .next t) : ∃ t', step { s with fl := fl', out := out' } = .next t' ∧
    SameEffect s { s with fl := fl', out := out' } t t' := by
  have hr := run_of_step_next h
  rcases step_next_cases h with ⟨hle, i, hd, he⟩ | ⟨hgt, rfl⟩ | ⟨hle, hd, rfl⟩
  · obtain ⟨t', ht', heff⟩ := exec_withFlOut fl' out' he
    exact ⟨t', (step_of_decode_ok (s := { s with fl := fl', out := out' }) hr hle hd).trans ht', heff⟩
  · exact ⟨_, step_of_pc_gt hr hgt, sameEffect_raise fl' out' _⟩
  · exact ⟨_, step_of_decode_error hr hle hd, sameEffect_raise fl' out' _⟩

end

/-- Settles O40: a step's effect does not depend on FL or `out`, field by field of `SameEffect`. -/
theorem flagsAndOutputAreNeverRead : Obligations.FlagsAndOutputAreNeverRead := by
  intro s t fl' out' h
  obtain ⟨u, hu, ⟨hx, hpc, hmem, hrun, hout, hfl⟩⟩ := step_withFlOut fl' out' h
  exact ⟨u, hu, hx, hpc, hmem, hrun, hout, hfl⟩

/-! ## The invariant (R29, R33, R34, R37, R165) -/

theorem Completes.mem_wf {s u : State} {i : Instr} (h : Completes s i u) (hm : Memory.wf s.mem) :
    Memory.wf u.mem := by
  cases h with
  | st | push | call => exact Memory.wf_write _ _ hm (BitVec.isLt _)
  | ldi | prn | hlt | mul | add | cmp | pop | ret => simpa using hm

/-- COMPARE leaves a legal FL: bits 7:3 were 0, and one of bits 2:0 is set (R132). -/
theorem flagsLegal_compareFlags {fl : Byte} (h : flagsLegal fl) (a b : Byte) :
    flagsLegal (compareFlags fl a b) := by
  have hm : fl &&& 0xF8 = 0 := by rcases h with rfl | rfl | rfl | rfl <;> decide
  rw [compareFlags_of_masked _ _ _ hm]
  split
  · exact .inr (.inr (.inr rfl))
  · split
    · exact .inr (.inr (.inl rfl))
    · exact .inr (.inl rfl)

theorem Completes.flagsLegal {s u : State} {i : Instr} (h : Completes s i u) (hf : flagsLegal s.fl) :
    flagsLegal u.fl := by
  cases h with
  | cmp => exact flagsLegal_compareFlags hf _ _
  | ldi | prn | hlt | mul | add | st | push | pop | call | ret => simpa using hf

/-- `pc` after an instruction that completes: the advance's, unless the instruction set it (R104, R105). -/
theorem Completes.endOfCycle_pc {s u : State} {i : Instr} (h : Completes s i u) (halting : Bool) :
    (haltIf halting (advance i.opcodeByte u)).pc = if i.setsPc then u.pc else s.pc + 1 + i.aa.toNat := by
  obtain ⟨-, hpc, -⟩ := handler_ok_run_pc (handler_ok_iff.2 h)
  rw [haltIf_pc, advance_opcodeByte]
  cases hi : i.setsPc with
  | true => rfl
  | false => simp [hpc hi]

/-- An instruction that completes leaves the engine running or halted, as the handler signals. -/
theorem Completes.endOfCycle_run {s u : State} {i : Instr} (h : Completes s i u) (halting : Bool) (op : Byte) :
    (haltIf halting (advance op u)).run = if halting then .halted else s.run := by
  obtain ⟨hrun, -, -⟩ := handler_ok_run_pc (handler_ok_iff.2 h)
  rw [haltIf_run, advance_run, hrun]

/-- An instruction that completes in a running engine has not faulted. -/
theorem Completes.endOfCycle_safe {s u : State} {i : Instr} (h : Completes s i u) (hr : s.run = .running)
    (halting : Bool) (op : Byte) : (haltIf halting (advance op u)).safe := by
  intro f hf
  rw [h.endOfCycle_run, hr] at hf
  split at hf <;> cases hf

/-- Raising a fault changes nothing that a record speaks of. -/
theorem describes_raise (s : State) (f g : FaultRecord) : f.describes (raise s g) ↔ f.describes s := by
  cases f <;> rfl

/-- The fault state of a cycle meets the invariant, if its record describes the state the cycle began in. -/
theorem Inv.raise {s : State} {f : FaultRecord} (h : Inv s) (hf : f.describes s) : Inv (raise s f) where
  memory := h.memory
  pc := h.pc
  flags := h.flags
  record := by
    intro g hg
    cases hg
    exact (describes_raise s f f).2 hf

/-- The register operands are operand bytes of the encoding (R76). -/
theorem mem_operandBytes_of_mem_regOperands {i : Instr} {b : Byte} (h : b ∈ i.regOperands) :
    b ∈ i.operandBytes := by
  cases i with
  | ldi => exact List.mem_cons.2 (.inl (List.mem_singleton.1 h))
  | prn | hlt | mul | add | cmp | push | pop | call | ret | st => exact h

/-- The fault that an instruction's handler meets has a true record. -/
theorem handler_fault_describes {s : State} {i : Instr} {f : FaultRecord} (hle : s.pc ≤ 253)
    (hd : decode (fetchedBytes s) = .ok i) (h : handler s i = .error (.fault f)) : f.describes s := by
  obtain ⟨hid, -, hops⟩ := fields_of_decode hd
  rcases handler_fault_cases h with hf | ⟨aa, r, rfl, hle', rfl⟩
  · obtain ⟨b, hb, rfl⟩ := Option.map_eq_some_iff.1 hf
    have h8 : 8 ≤ b.toNat := by simpa using List.find?_some hb
    have hmem := hops.subset (mem_operandBytes_of_mem_regOperands (List.mem_of_find?_eq_some hb))
    exact ⟨rfl, hle, h8, by simpa using hmem⟩
  · exact ⟨rfl, hle, hid.symm, rfl, rfl, hle'⟩

/-- The state that an instruction of a cycle at `pc ≤ 253` completes with meets the invariant. -/
theorem Inv.endOfCycle {s u : State} {i : Instr} (h : Inv s) (hr : s.run = .running) (hle : s.pc ≤ 253)
    (hu : Completes s i u) (halting : Bool) : Inv (haltIf halting (advance i.opcodeByte u)) where
  memory := by simpa using hu.mem_wf h.memory
  pc := by
    obtain ⟨-, -, hset⟩ := handler_ok_run_pc (handler_ok_iff.2 hu)
    have haa := i.aa.isLt
    rw [hu.endOfCycle_pc]
    split
    · have := hset ‹_›
      omega
    · omega
  flags := by simpa using hu.flagsLegal h.flags
  record := fun f hf => absurd hf (hu.endOfCycle_safe hr _ _ f)

/-- Settles O54: a cycle ends with an instruction that completed, or with a fault whose record is true. -/
theorem stepKeepsTheInvariant : Obligations.StepKeepsTheInvariant := by
  intro s t hinv h
  rcases step_next_cases h with ⟨hle, i, hd, he⟩ | ⟨hgt, rfl⟩ | ⟨hle, hd, rfl⟩
  · rcases exec_next_cases he with ⟨u, hu, rfl⟩ | ⟨f, hf, rfl⟩
    · exact hinv.endOfCycle (run_of_step_next h) hle hu _
    · exact hinv.raise (handler_fault_describes hle hd hf)
  · exact hinv.raise ⟨rfl, hgt, rfl⟩
  · exact hinv.raise ⟨rfl, hle, rfl, no_row_of_decode_error hd⟩

/-! ## Registers and memory before the first cycle (R26, R38) -/

theorem State.reset_reg_sp : State.reset.reg Config.spReg = Config.spTop := by decide

theorem State.reset_reg_of_ne : ∀ q, q ≠ Config.spReg → State.reset.reg q = 0 := by decide

/-- The state the first cycle of an image that fits starts from. -/
theorem load_of_le {image : List Byte} (h : image.length ≤ 255) :
    load image = .ok ({ State.reset with mem := Memory.writeAll [] 0 image }.setReg Config.emReg
      (BitVec.ofNat 8 image.length)) := if_pos h

/-- Settles O1: the load writes EM and the image into the reset state. -/
theorem loadedRegistersAndMemory : Obligations.LoadedRegistersAndMemory := by
  refine ⟨⟨State.reset_reg_sp, State.reset_reg_of_ne, fun c => Memory.read_nil c⟩, ?_⟩
  intro image hlen
  refine ⟨_, load_of_le hlen, ?_, ?_, ?_, ?_⟩
  · rw [State.reg_setReg_same, BitVec.toNat_ofNat]
    omega
  · exact (State.reg_setReg_of_ne _ _ _ _ (by decide)).trans State.reset_reg_sp
  · intro q h4 h7
    exact (State.reg_setReg_of_ne _ _ _ _ h4).trans (State.reset_reg_of_ne q h7)
  · intro c
    exact (Memory.read_writeAll [] 0 c image).trans (by simp)

/-! ## One memory for code, data and stack (R37) -/

theorem memWrite_eq_ok {s t : State} {a : Nat} {v : Byte} (h : memWrite s a v = .ok t) : t = s.store a v := by
  unfold memWrite at h
  split at h
  · cases h
    rfl
  · cases h

/-- A fetch that delivers a triple delivers the bytes at `pc`. -/
theorem fetch_eq_ok {s : State} {tr : Triple} (h : fetch s = .ok tr) : tr = tripleAt s := by
  rcases Nat.lt_or_ge 253 s.pc with hgt | hle
  · cases (fetch_of_gt hgt).symm.trans h
  · cases (fetch_of_le hle).symm.trans h
    rfl

/-- What a fetch delivers of the byte at an address that it covers. -/
theorem fetch_covers {t : State} {tr : Triple} (h : fetch t = .ok tr) (a : Nat) :
    (a = t.pc → tr.op = t.byte a) ∧ (a = t.pc + 1 → tr.opA = t.byte a) ∧ (a = t.pc + 2 → tr.opB = t.byte a) := by
  obtain rfl := fetch_eq_ok h
  exact ⟨fun ha => ha ▸ rfl, fun ha => ha ▸ rfl, fun ha => ha ▸ rfl⟩

/-- A data write is what the next fetch that covers its address delivers. -/
theorem fetch_after_memWrite {s t : State} {v : Byte} {tr : Triple} (hf : fetch t = .ok tr) :
    (memWrite s s.pc v = .ok t → tr.op = v) ∧ (memWrite s (s.pc + 1) v = .ok t → tr.opA = v) ∧
      (memWrite s (s.pc + 2) v = .ok t → tr.opB = v) := by
  obtain rfl := fetch_eq_ok hf
  refine ⟨fun h => ?_, fun h => ?_, fun h => ?_⟩ <;>
  · obtain rfl := memWrite_eq_ok h
    exact State.store_byte_same s v _

/-- RET goes to the byte at SP. -/
theorem exec_ret_pc {s : State} {v : Byte} (hv : s.byte s.sp.toNat = v) (aa : BitVec 2) :
    ∃ u, exec (.ret aa) s = .next u ∧ u.pc = v.toNat :=
  ⟨_, (Completes.ret aa).exec, hv ▸ (Completes.ret aa).endOfCycle_pc _⟩

/-- POP of a register other than R7 loads the byte at SP. -/
theorem exec_pop_reg {s : State} {v : Byte} (hv : s.byte s.sp.toNat = v) (aa : BitVec 2) {r : Fin 8} (hr : r ≠ 7) :
    ∃ u, exec (.pop aa (regByte r)) s = .next u ∧ u.reg r = v :=
  ⟨_, (Completes.pop aa r).exec, by simp [popIncrement_reg_of_ne _ _ hr, hv]⟩

/-- A PUSH that does not fault leaves the register's value at the new SP. -/
theorem byte_sp_of_exec_push {aa : BitVec 2} {r : Fin 8} (hr : r ≠ 7) {s t : State}
    (h : exec (.push aa (regByte r)) s = .next t) (hsafe : t.safe) : t.byte t.sp.toNat = s.reg r := by
  rcases Nat.lt_or_ge s.em.toNat s.sp.toNat with hlt | hge
  · cases (Completes.push aa r hlt).exec.symm.trans h
    simpa using State.reg_setReg_of_ne _ _ _ _ hr
  · cases (exec_of_handler_fault (handler_push_overflow s aa r hge)).symm.trans h
    exact absurd rfl (hsafe _)

/-- CALL leaves the return address at the new SP. -/
theorem byte_sp_of_exec_call {aa : BitVec 2} {r : Fin 8} {s t : State}
    (h : exec (.call aa (regByte r)) s = .next t) : t.byte t.sp.toNat = returnAddress s := by
  cases (Completes.call aa r).exec.symm.trans h
  simp

theorem returnAddress_toNat {s : State} (h : s.pc ≤ 253) : (returnAddress s).toNat = s.pc + 2 := by
  rw [returnAddress, BitVec.toNat_ofNat, callRetOffset]
  omega

/-- Settles O6: data writes, PUSH and CALL store the byte that fetch, RET and POP read. -/
theorem oneMemoryForCodeDataAndStack : Obligations.OneMemoryForCodeDataAndStack := by
  refine ⟨fun addr h => memRead_of_lt h, fun s addr h b hb => ?_, fun s t v tr => ?_, fun s t v aa h => ?_,
    fun s t aa r tr hr h hsafe hf => ?_, fun s t aa r tr hle h hf => ?_⟩
  · cases (memRead_of_ge h).symm.trans hb
  · exact ⟨fun h hf => (fetch_after_memWrite hf).1 h, fun h hf => (fetch_after_memWrite hf).2.1 h,
      fun h hf => (fetch_after_memWrite hf).2.2 h⟩
  · obtain rfl := memWrite_eq_ok h
    have hv : (s.store s.sp.toNat v).byte (s.store s.sp.toNat v).sp.toNat = v := by simp
    exact ⟨exec_ret_pc hv aa, fun r hr => exec_pop_reg hv aa hr⟩
  · exact byte_sp_of_exec_push hr h hsafe ▸ fetch_covers hf t.sp.toNat
  · have hv : (t.byte t.sp.toNat).toNat = s.pc + 2 := by
      rw [byte_sp_of_exec_call h, returnAddress_toNat hle]
    obtain ⟨hop, hopA, hopB⟩ := fetch_covers hf t.sp.toNat
    exact ⟨fun ha => hop ha ▸ hv, fun ha => hopA ha ▸ hv, fun ha => hopB ha ▸ hv⟩

/-! ## Which registers, which flags and which output an instruction writes (R25, R34, R39) -/

/-- A handler that completes leaves every register that R25's table does not list among its writes. -/
theorem Completes.reg_of_unwritten {s u : State} {i : Instr} {q : Fin 8} (h : Completes s i u)
    (hq : regByte q ∉ registerWrites i) : u.reg q = s.reg q := by
  cases h with
  | prn | hlt | cmp | st => rfl
  | ldi | mul | add | push | call | ret =>
    exact State.reg_setReg_of_ne _ _ _ _ (by simpa [registerWrites, regByte_inj] using hq)
  | pop aa r =>
    obtain ⟨hr, hsp⟩ : q ≠ r ∧ q ≠ Config.spReg := by simpa [registerWrites, regByte_inj] using hq
    rw [popIncrement_reg_of_ne _ _ hsp, State.reg_setReg_of_ne _ _ _ _ hr]

/-- Settles O37: `Completes.reg_of_unwritten` for an instruction that completes; a fault writes no register. -/
theorem registerWritesAreThoseOfTheAccessTable : Obligations.RegisterWritesAreThoseOfTheAccessTable := by
  intro i s t h q hq
  rcases exec_next_cases h with ⟨u, hu, rfl⟩ | ⟨f, -, rfl⟩
  · simpa using hu.reg_of_unwritten hq
  · rfl

/-- Only CMP writes FL (R34). -/
theorem Completes.fl_of_not_cmp {s u : State} {i : Instr} (h : Completes s i u) (hi : i.ident ≠ 0x27) :
    u.fl = s.fl := by
  cases h with
  | cmp => exact absurd rfl hi
  | pop => simp
  | ldi | prn | hlt | mul | add | st | push | call | ret => rfl

/-- Only PRN emits, and it emits the value of its register (R39, R175). -/
theorem Completes.out_cases {s u : State} {i : Instr} (h : Completes s i u) :
    u.out = s.out ∨ ∃ aa r, i = .prn aa (regByte r) ∧ u.out = s.out ++ [s.reg r] := by
  cases h with
  | prn aa r => exact .inr ⟨aa, r, rfl, rfl⟩
  | pop => simp
  | ldi | hlt | mul | add | cmp | st | push | call | ret => exact .inl rfl

/-- Settles O41: the decoded instruction's identifier is the opcode byte's, and a fault writes neither FL nor `out`. -/
theorem onlyCmpWritesFlagsOnlyPrnEmits : Obligations.OnlyCmpWritesFlagsOnlyPrnEmits := by
  intro s t h
  rcases step_next_cases h with ⟨-, i, hd, he⟩ | ⟨-, rfl⟩ | ⟨-, -, rfl⟩
  · obtain ⟨hid, -, hops⟩ := fields_of_decode hd
    rcases exec_next_cases he with ⟨u, hu, rfl⟩ | ⟨f, -, rfl⟩
    · refine ⟨fun hne => ?_, ?_⟩
      · simpa using hu.fl_of_not_cmp (hid ▸ hne)
      · rcases hu.out_cases with ho | ⟨aa, r, rfl, ho⟩
        · exact .inl (by simpa using ho)
        · have hb : regByte r = s.byte (s.pc + 1) := (List.cons_prefix_cons.1 hops).1
          exact .inr ⟨hid.symm, r, hb.symm, by simpa using ho⟩
    · exact ⟨fun _ => rfl, .inl rfl⟩
  · exact ⟨fun _ => rfl, .inl rfl⟩
  · exact ⟨fun _ => rfl, .inl rfl⟩

/-! ## The program counter (R28, R30) -/

/-- Settles O42: `pc` after an instruction that completes is `Completes.endOfCycle_pc`; a fault leaves it. -/
theorem pcMovesOnlyByAdvanceCallAndReturn : Obligations.PcMovesOnlyByAdvanceCallAndReturn := by
  refine ⟨State.setReg_pc, fun i s t hr h => ?_⟩
  rcases exec_next_cases h with ⟨u, hu, rfl⟩ | ⟨f, -, rfl⟩
  · obtain ⟨-, -, hset⟩ := handler_ok_run_pc (handler_ok_iff.2 hu)
    refine ⟨fun ⟨f, hf⟩ => absurd hf (hu.endOfCycle_safe hr _ _ f), fun _ => ⟨fun hi => ?_, fun hi => ?_⟩⟩
    · rw [hu.endOfCycle_pc, hi]
      rfl
    · rw [hu.endOfCycle_pc, if_pos hi]
      exact hset hi
  · exact ⟨fun _ => rfl, fun hsafe => absurd rfl (hsafe f)⟩

/-- Settles O43: O42 gives the new `pc`, and from 256 on the fetch faults at `pc` itself. -/
theorem pcDoesNotWrap : Obligations.PcDoesNotWrap := by
  intro i s t hr h hi hsafe hge
  obtain ⟨-, hpc⟩ := pcMovesOnlyByAdvanceCallAndReturn.2 i s t hr h
  have ht : t.pc = s.pc + 1 + i.aa.toNat := (hpc hsafe).1 hi
  refine ⟨ht, ht ▸ hge, fun hrun => ?_⟩
  rw [step_of_pc_gt hrun (by omega), Nat.max_eq_left (ht ▸ hge)]
  rfl

/-! ## The register file (R20) -/

/-- Settles O3: the laws of a register write. -/
theorem registerFileIsEightPlainRegisters : Obligations.RegisterFileIsEightPlainRegisters := by
  intro s r v
  refine ⟨Vector.length_toList, s.reg_setReg_same r v, ?_, fun _ => rfl, rfl, rfl, rfl, rfl⟩
  intro q hq
  exact s.reg_setReg_of_ne r q v (by simpa using hq)

end Sys2Proof.Machine
end

section
/-! SUPPORT. What an access to memory answers, which byte an instruction may change, and the settled statements of
20_memory.md. -/

namespace Sys2Proof.Machine

/-! ## One access (R53, R54) -/

theorem memWrite_of_lt {s : State} {a : Nat} (h : a < 256) (v : Byte) : memWrite s a v = .ok (s.store a v) := by
  simp [memWrite, h]

theorem memWrite_of_ge {s : State} {a : Nat} (h : 256 ≤ a) (v : Byte) :
    memWrite s a v = .error (.fault (.addressFault a s.pc)) := by
  simp [memWrite, Nat.not_lt.2 h]

/-- Settles O4: the two answers of a read. -/
theorem memReadReturnsByteOrFaults : Obligations.MemReadReturnsByteOrFaults :=
  fun _ _ => ⟨memRead_of_lt, memRead_of_ge⟩

/-- Settles O5: the two answers of a write, and what the store of one cell changes and leaves. -/
theorem memWriteStoresOneCell : Obligations.MemWriteStoresOneCell := by
  intro s addr v
  refine ⟨fun hlt => ⟨s.store addr v, memWrite_of_lt hlt v, ?_, ?_, rfl, rfl, rfl, rfl, rfl⟩,
    fun hge => memWrite_of_ge hge v⟩
  · exact s.store_byte_same v addr
  · exact fun c hc => s.store_byte_of_ne v hc

/-! ## Which byte an instruction may change (R51) -/

/-- A handler that completes leaves every byte outside the address R51's table gives. -/
theorem Completes.byte_of_unstored {s u : State} {i : Instr} {c : Nat} (h : Completes s i u)
    (hc : storeAddress s i ≠ some c) : u.byte c = s.byte c := by
  cases h with
  | ldi | prn | hlt | mul | add | cmp | ret => rfl
  | pop => simp
  | st | push | call => exact State.store_byte_of_ne _ _ (by simpa [storeAddress, eq_comm] using hc)

/-- Settles O38: `Completes.byte_of_unstored` for an instruction that completes; a fault stores nothing. -/
theorem memoryWritesAreThoseOfTheAccessTable : Obligations.MemoryWritesAreThoseOfTheAccessTable := by
  intro i s t h c hc
  rcases exec_next_cases h with ⟨u, hu, rfl⟩ | ⟨f, -, rfl⟩
  · simpa using hu.byte_of_unstored hc
  · rfl

/-! ## A store and the fetch after it (R64) -/

/-- Memory after ST with legal registers: the stored value at its address, the old bytes elsewhere (R122). -/
theorem byte_of_exec_st {aa : BitVec 2} {ra rb : Fin 8} {s t : State}
    (h : exec (.st aa (regByte ra) (regByte rb)) s = .next t) (c : Nat) :
    t.byte c = if c = (s.reg rb).toNat then s.reg ra else s.byte c := by
  cases (Completes.st aa ra rb).exec.symm.trans h
  simp [State.store_byte]

theorem pc_of_exec_st {aa : BitVec 2} {ra rb : Fin 8} {s t : State}
    (h : exec (.st aa (regByte ra) (regByte rb)) s = .next t) : t.pc = s.pc + 1 + aa.toNat := by
  cases (Completes.st aa ra rb).exec.symm.trans h
  exact (Completes.st aa ra rb).endOfCycle_pc _

/-- Settles O48: the step is the latched ST, and the next fetch delivers the bytes of the memory it leaves. -/
theorem storeIsSeenByTheNextFetch : Obligations.StoreIsSeenByTheNextFetch := by
  intro s t aa ra rb hr hle hd h seen
  have he : exec (.st aa (regByte ra) (regByte rb)) s = .next t := (step_of_decode_ok hr hle hd).symm.trans h
  have hseen : ∀ c, t.byte c = seen c := byte_of_exec_st he
  refine ⟨pc_of_exec_st he, hseen, fun tr hf => ?_⟩
  rw [fetch_eq_ok hf, tripleAt, hseen, hseen, hseen]

end Sys2Proof.Machine
end

section
/-! SUPPORT. The decoder against the encoder, instructions under another AA field, and the settled statements of
30_encoding.md. -/

namespace Sys2Proof

/-! ## Which row an opcode byte selects, and which instructions dispatch (R79, R103) -/

/-- A row is selected by its identifier, and under `FULL8` by its AA field too. -/
theorem Row.selects_iff {k : Config.DispatchKey} {op : Byte} {r : Row} :
    r.selects k op = true ↔ r.id = opId op ∧ (k = .full8 → r.canonicalAA = opAA op) := by
  cases k with
  | low6 => exact ⟨fun h => ⟨(eq_of_beq h).symm, nofun⟩, fun ⟨hid, _⟩ => beq_iff_eq.2 hid.symm⟩
  | full8 =>
    constructor
    · intro h
      obtain rfl := eq_of_beq h
      simp
    · rintro ⟨hid, haa⟩
      simp [Row.selects, hid, haa rfl]

theorem Instr.dispatches_iff {k : Config.DispatchKey} {i : Instr} :
    i.dispatches k = true ↔ (k = .full8 → i.aa.toNat = i.operandCount) := by
  cases k <;> simp [Instr.dispatches, Instr.canonical]

/-- The lookup finds the row that the opcode byte selects: there is no second one. -/
theorem find_of_selects {k : Config.DispatchKey} {op : Byte} {r : Row} (hr : r ∈ dispatchTable)
    (h : r.selects k op = true) : dispatchTable.find? (Row.selects k op) = some r := by
  cases k with
  | low6 => exact find_low6_of_mem hr (eq_of_beq h)
  | full8 =>
    obtain rfl := eq_of_beq h
    exact find_full8_of_mem hr

/-! ## Decoding and encoding are inverse (R70, R76, R77) -/

/-- A triple decodes to exactly the instruction whose encoding it begins with, among those that dispatch. -/
theorem decodeTriple_eq_ok_iff {k : Config.DispatchKey} {op opA opB : Byte} {i : Instr} :
    decodeTriple k op opA opB = .ok i ↔ encode i <+: [op, opA, opB] ∧ i.dispatches k = true := by
  rw [encode, List.cons_prefix_cons, Instr.dispatches_iff]
  constructor
  · intro h
    rcases decodeTriple_cases k op opA opB with ⟨r, hr, hs, hd⟩ | ⟨-, hd⟩
    · cases hd.symm.trans h
      obtain ⟨hid, haa⟩ := Row.selects_iff.1 hs
      obtain ⟨hident, hAA, hops, hcount⟩ := build_fields hr (opAA op) opA opB
      refine ⟨⟨?_, hops⟩, fun hk => ?_⟩
      · rw [Instr.opcodeByte, hAA, hident, hid, opByte_opAA_opId]
      · rw [hAA, hcount, haa hk]
    · cases hd.symm.trans h
  · rintro ⟨⟨rfl, hops⟩, hdisp⟩
    obtain ⟨r, hr, hid, hcount, hbuild⟩ := exists_row i
    have hs : r.selects k i.opcodeByte = true := Row.selects_iff.2
      ⟨hid.trans (opId_opByte _ _).symm, fun hk =>
        (BitVec.eq_of_toNat_eq (hcount.trans (hdisp hk).symm)).trans (opAA_opByte _ _).symm⟩
    rw [decodeTriple_of_find (find_of_selects hr hs), Instr.opcodeByte, opAA_opByte, hbuild _ _ hops]

/-- The model's decoder: every encoding dispatches (`LOW6`). -/
theorem decode_eq_ok_iff {op opA opB : Byte} {rest : List Byte} {i : Instr} :
    decode (op :: opA :: opB :: rest) = .ok i ↔ encode i <+: [op, opA, opB] :=
  decodeTriple_eq_ok_iff.trans (and_iff_left rfl)

/-- No encoding is longer than the triple that a fetch delivers (R101). -/
theorem encode_length_le (i : Instr) : (encode i).length ≤ 3 := by
  cases i with
  | ldi | prn | hlt | mul | add | cmp | push | pop | call | ret | st => simp [encode, Instr.operandBytes]

/-- A list of at least three bytes that begins with an encoding decodes to the instruction. -/
theorem decode_of_encode_prefix {i : Instr} {bs : List Byte} (hpre : encode i <+: bs) (h : 3 ≤ bs.length) :
    decode bs = .ok i := by
  match bs, h with
  | op :: opA :: opB :: rest, _ =>
    exact decode_eq_ok_iff.2
      (List.prefix_of_prefix_length_le hpre (List.prefix_append [op, opA, opB] rest) (encode_length_le i))

/-- Settles O7: `decodeTriple_eq_ok_iff` from right to left, and `decode_of_encode_prefix` for longer lists. -/
theorem decodeOfEncodeIsTheInstruction : Obligations.DecodeOfEncodeIsTheInstruction :=
  ⟨fun _ _ h => decode_of_encode_prefix (List.prefix_append _ _) h,
    fun _ _ _ _ _ hdisp hpre => decodeTriple_eq_ok_iff.2 ⟨hpre, hdisp⟩⟩

/-- Settles O8: `decodeTriple_eq_ok_iff` from left to right. -/
theorem decodedTripleBeginsWithTheEncoding : Obligations.DecodedTripleBeginsWithTheEncoding :=
  fun _ _ _ _ _ h => decodeTriple_eq_ok_iff.1 h

/-- Settles O9: each word begins with the encoding of its instruction. -/
theorem specWordsDecode : Obligations.SpecWordsDecode := by
  simp only [Obligations.SpecWordsDecode, decode_eq_ok_iff]
  decide

/-! ## What the operand bytes do not decide (R73, R76) -/

/-- Two triples that begin with the same encoding decode alike. -/
theorem decode_alike_of_encode_prefix {i : Instr} {op a b a' b' : Byte} (h : encode i <+: [op, a, b])
    (h' : encode i <+: [op, a', b']) : ∃ j, decode [op, a, b] = .ok j ∧ decode [op, a', b'] = .ok j :=
  ⟨i, decode_eq_ok_iff.2 h, decode_eq_ok_iff.2 h'⟩

/-- Settles O10: the encodings of PRN, PUSH, POP and CALL end before opB, those of HLT and RET before opA. -/
theorem ignoredOperandBytesAreNeverChecked : Obligations.IgnoredOperandBytesAreNeverChecked := by
  intro aa a b a' b'
  simp only [List.forall_mem_cons, List.not_mem_nil, IsEmpty.forall_iff, implies_true, and_true]
  refine ⟨⟨?prn, ?push, ?pop, ?call⟩, ?hlt, ?ret⟩
  case prn => exact decode_alike_of_encode_prefix (i := .prn aa a) ⟨[b], rfl⟩ ⟨[b'], rfl⟩
  case push => exact decode_alike_of_encode_prefix (i := .push aa a) ⟨[b], rfl⟩ ⟨[b'], rfl⟩
  case pop => exact decode_alike_of_encode_prefix (i := .pop aa a) ⟨[b], rfl⟩ ⟨[b'], rfl⟩
  case call => exact decode_alike_of_encode_prefix (i := .call aa a) ⟨[b], rfl⟩ ⟨[b'], rfl⟩
  case hlt => exact decode_alike_of_encode_prefix (i := .hlt aa) ⟨[a, b], rfl⟩ ⟨[a', b'], rfl⟩
  case ret => exact decode_alike_of_encode_prefix (i := .ret aa) ⟨[a, b], rfl⟩ ⟨[a', b'], rfl⟩

/-- The opcode byte of the instruction that a triple decodes to is the triple's. -/
theorem opcodeByte_of_decode {op a b : Byte} {i : Instr} (h : decode [op, a, b] = .ok i) : i.opcodeByte = op :=
  (List.cons_prefix_cons.1 (decode_eq_ok_iff.1 h)).1

/-- AA and the C bit of a decoded instruction are the opcode byte's. -/
theorem aa_setsPc_of_decode {op a b : Byte} {i : Instr} (h : decode [op, a, b] = .ok i) :
    i.aa = opAA op ∧ i.setsPc = opSetsPc op := by
  obtain rfl := opcodeByte_of_decode h
  exact ⟨(opAA_opByte _ _).symm, (Machine.opSetsPc_opcodeByte i).symm⟩

/-- Whether a triple decodes does not depend on its operand bytes. -/
theorem exists_decode_of_decode {op a b : Byte} {i : Instr} (h : decode [op, a, b] = .ok i) (a' b' : Byte) :
    ∃ i', decode [op, a', b'] = .ok i' := by
  rcases decodeTriple_cases dispatchKey op a b with ⟨r, hr, hs, -⟩ | ⟨-, hd⟩
  · exact ⟨_, decodeTriple_of_find (find_of_selects hr hs) a' b'⟩
  · cases hd.symm.trans h

/-- Settles O11: by `aa_setsPc_of_decode`, under the operand bytes given and under any others. -/
theorem lengthComesFromTheOpcodeByteAlone : Obligations.LengthComesFromTheOpcodeByteAlone := by
  intro op a b i h
  obtain ⟨haa, hpc⟩ := aa_setsPc_of_decode h
  refine ⟨haa, fun a' b' => ?_⟩
  obtain ⟨i', h'⟩ := exists_decode_of_decode h a' b'
  obtain ⟨haa', hpc'⟩ := aa_setsPc_of_decode h'
  exact ⟨i', h', haa', hpc'.trans hpc.symm⟩

/-! ## The opcode bytes of no instruction (R78) -/

/-- A triple is rejected exactly when no row of the table has its identifier. -/
theorem decode_eq_unknown_iff {op a b : Byte} :
    decode [op, a, b] = .error (.unknownInstruction op) ↔ ∀ r ∈ dispatchTable, r.id ≠ opId op := by
  refine ⟨no_row_of_decode_error, fun hn => ?_⟩
  rcases decodeTriple_cases dispatchKey op a b with ⟨r, hr, hs, -⟩ | ⟨-, hd⟩
  · exact absurd (Row.selects_iff.1 hs).1 (hn r hr)
  · exact hd

theorem opId_toNat (op : Byte) : (opId op).toNat = op.toNat % 64 := by
  simp [opId]

/-- The identifiers without a row, each of the 64 checked against the table. -/
theorem no_row_iff : ∀ id : BitVec 6, (∀ r ∈ dispatchTable, r.id ≠ id) ↔
    (id.toNat = 0x00 ∨ id.toNat = 0x03 ∨ (0x08 ≤ id.toNat ∧ id.toNat ≤ 0x0F) ∨ (0x12 ≤ id.toNat ∧ id.toNat ≤ 0x1F) ∨
      id.toNat = 0x21 ∨ (0x23 ≤ id.toNat ∧ id.toNat ≤ 0x26) ∨ 0x28 ≤ id.toNat) := by
  decide

/-- Settles O12: a triple is rejected for its identifier alone. -/
theorem unknownIdentifiersAreExactlyThe53 : Obligations.UnknownIdentifiersAreExactlyThe53 := by
  intro op a b
  rw [decode_eq_unknown_iff, no_row_iff, opId_toNat]

end Sys2Proof

namespace Sys2Proof.Machine

/-! ## Another AA field (R79, R104) -/

@[simp] theorem aa_withAA (i : Instr) (aa : BitVec 2) : (i.withAA aa).aa = aa := by cases i <;> rfl

@[simp] theorem setsPc_withAA (i : Instr) (aa : BitVec 2) : (i.withAA aa).setsPc = i.setsPc := by cases i <;> rfl

@[simp] theorem signalsHalt_withAA (i : Instr) (aa : BitVec 2) : signalsHalt (i.withAA aa) = signalsHalt i := by
  cases i <;> rfl

/-- The handler of an instruction does not look at AA (R79). -/
@[simp] theorem handler_withAA (s : State) (i : Instr) (aa : BitVec 2) : handler s (i.withAA aa) = handler s i := by
  cases i <;> rfl

theorem Completes.withAA {s u : State} {i : Instr} (h : Completes s i u) (aa : BitVec 2) :
    Completes s (i.withAA aa) u :=
  handler_ok_iff.1 ((handler_withAA s i aa).trans (handler_ok_iff.2 h))

/-- The advances of two encodings of one instruction differ in `pc` alone. -/
theorem advance_withAA (i : Instr) (aa : BitVec 2) (s : State) :
    advance (i.withAA aa).opcodeByte s =
      if i.setsPc then advance i.opcodeByte s else (advance i.opcodeByte s).setPc (s.pc + 1 + aa.toNat) := by
  rw [advance_opcodeByte, advance_opcodeByte, setsPc_withAA, aa_withAA]
  split <;> rfl

theorem haltIf_setPc (h : Bool) (s : State) (n : Nat) : haltIf h (s.setPc n) = (haltIf h s).setPc n := by
  unfold haltIf
  split <;> rfl

/-- Settles O13: a handler that completes does so under every AA, and `advance_withAA` compares the two ends of the
cycle; one that faults answers the state before. -/
theorem aliasEncodingsRunTheSameHandler : Obligations.AliasEncodingsRunTheSameHandler := by
  intro i aa s t hr h
  rcases exec_next_cases h with ⟨u, hu, rfl⟩ | ⟨f, hf, rfl⟩
  · refine ⟨_, (hu.withAA aa).exec, ?_⟩
    rw [signalsHalt_withAA, advance_withAA]
    cases hi : i.setsPc with
    | true => exact ⟨rfl, fun _ => rfl, nofun⟩
    | false =>
      obtain ⟨-, hpc, -⟩ := handler_ok_run_pc (handler_ok_iff.2 hu)
      rw [if_neg Bool.false_ne_true, haltIf_setPc, hpc hi]
      refine ⟨rfl, ?_, fun _ _ => rfl⟩
      rintro (hset | ⟨f, hf⟩)
      · cases hset
      · exact absurd hf (hu.endOfCycle_safe hr _ _ f)
  · exact ⟨_, exec_of_handler_fault ((handler_withAA s i aa).trans hf), rfl, fun _ => rfl,
      fun _ hsafe => absurd rfl (hsafe f)⟩

end Sys2Proof.Machine
end

section
/-! SUPPORT. The cycle of a running engine, the end of a run, and the settled statements of 40_engine_cycle.md. -/

namespace Sys2Proof.Machine

/-! ## Fetch, decode and dispatch (R101, R102, R103) -/

/-- Settles O14: by `step_of_decode_ok`. -/
theorem stepRunsTheDecodedInstruction : Obligations.StepRunsTheDecodedInstruction :=
  fun _ _ => step_of_decode_ok

/-- A triple whose opcode byte selects a row decodes to what the row builds. -/
theorem decodeTriple_of_selects {k : Config.DispatchKey} {op : Byte} {r : Row} (hr : r ∈ dispatchTable)
    (h : r.selects k op = true) (a b : Byte) : decodeTriple k op a b = .ok (r.build (opAA op) a b) :=
  decodeTriple_of_find (find_of_selects hr h) a b

/-- A triple whose opcode byte selects no row is rejected. -/
theorem decodeTriple_of_not_selects {k : Config.DispatchKey} {op : Byte}
    (h : ∀ r ∈ dispatchTable, ¬ r.selects k op) (a b : Byte) :
    decodeTriple k op a b = .error (.unknownInstruction op) := by
  rcases decodeTriple_cases k op a b with ⟨r, hr, hs, -⟩ | ⟨-, hd⟩
  · exact absurd hs (h r hr)
  · exact hd

/-- Settles O15: a row is selected by its identifier, under `FULL8` by its canonical byte, and no other row is. -/
theorem dispatchLooksUpTheLowSixBits : Obligations.DispatchLooksUpTheLowSixBits := by
  refine ⟨fun s hrun hle => ⟨fun r hr hid => ?_, fun hn => ?_⟩, fun op a b => ⟨fun r hr hop => ?_, fun hn => ?_⟩⟩
  · exact step_of_decode_ok hrun hle (decodeTriple_of_selects (k := .low6) hr (beq_iff_eq.2 hid.symm) _ _)
  · exact step_of_decode_error hrun hle (decode_eq_unknown_iff.2 hn)
  · exact decodeTriple_of_selects (k := .full8) hr (beq_iff_eq.2 hop) a b
  · exact decodeTriple_of_not_selects (k := .full8) (fun r hr hs => hn r hr (eq_of_beq hs)) a b

/-- Settles O16: the first address out of range is the larger of `pc` and 256. -/
theorem fetchPastTheEndFaults : Obligations.FetchPastTheEndFaults := by
  refine fun s hrun => ⟨fun hpc => ?_, fun hge => ?_⟩
  · rw [step_of_pc_gt hrun (by omega), show max s.pc 256 = 256 by omega]
    rfl
  · rw [step_of_pc_gt hrun (by omega), Nat.max_eq_left hge]
    rfl

/-! ## A table word placed at the fetch (log entry 21) -/

/-- The three bytes from the fetch place on are in memory (R102). -/
theorem fetchPlace_le (s : State) : fetchPlace s ≤ 253 := by
  unfold fetchPlace
  split
  · exact Nat.le_of_lt_succ (Nat.lt_of_add_lt_add_right ‹_›)
  · exact Nat.zero_le _

/-- The fetch delivers the bytes of the word that was placed. -/
theorem fetchedBytes_withFetchWord (s : State) (nbits w : Nat) :
    fetchedBytes (s.withFetchWord nbits w) = tableBytes nbits w := by
  simp [State.withFetchWord, State.byte, Memory.read_writeAll, tableBytes]

/-- The decoder accepts the bytes of a table word that it reads as an instruction. -/
theorem decode_tableBytes {nbits w : Nat} {i : Instr} (h : decodeTableWord nbits w = some i) :
    decode (tableBytes nbits w) = .ok i := by
  unfold decodeTableWord at h
  cases hd : decode (tableBytes nbits w) with
  | ok j => simpa [hd, Except.toOption] using h
  | error e => simp [hd, Except.toOption] at h

/-- Settles O52: the step fetches the placed word, which decodes to the instruction. -/
theorem fetchWordIsRunNext : Obligations.FetchWordIsRunNext := by
  intro s nbits w i h
  have hd : decode (fetchedBytes (s.withFetchWord nbits w)) = .ok i := by
    rw [fetchedBytes_withFetchWord, decode_tableBytes h]
  exact step_of_decode_ok rfl (fetchPlace_le s) hd

/-! ## Which states have a step (R100, R108) -/

/-- A cycle of a running engine always ends in a next state. -/
theorem exists_step_of_running {s : State} (hr : s.run = .running) : ∃ t, step s = .next t := by
  rcases step_cases hr with ⟨-, i, -, hs⟩ | ⟨-, hs⟩ | ⟨-, -, hs⟩
  · rcases exec_cases i s with ⟨u, -, he⟩ | ⟨f, -, he⟩
    · exact ⟨_, hs.trans he⟩
    · exact ⟨_, hs.trans he⟩
  · exact ⟨_, hs⟩
  · exact ⟨_, hs⟩

/-- Settles O17: by `exists_step_of_running` and `run_of_step_next`; a run state is one of the three. -/
theorem everyCycleOfARunningEngineEnds : Obligations.EveryCycleOfARunningEngineEnds := by
  refine fun s => ⟨fun hr => ?_, fun hn t h => hn (run_of_step_next h)⟩
  obtain ⟨t, ht⟩ := exists_step_of_running hr
  refine ⟨t, ht, ?_⟩
  cases t.run with
  | running => exact .inl rfl
  | halted => exact .inr (.inl rfl)
  | faulted f => exact .inr (.inr ⟨f, rfl⟩)

theorem step_of_halted {s : State} (h : s.run = .halted) : step s = .fault .engineHalted := by
  simp [step, h]

theorem step_of_faulted {s : State} {f : FaultRecord} (h : s.run = .faulted f) :
    step s = .fault (.engineFaulted f) := by
  simp [step, h]

/-- A run of at least one step that reaches a state began with a step. -/
theorem exists_step_of_core_run {n : Nat} {s t : State} (h : core.run (n + 1) s = .next t) :
    ∃ u, step s = .next u := by
  cases hs : step s with
  | next u => exact ⟨u, rfl⟩
  | fault r | refused r => simp [Host.Core.run, core, hs] at h

/-- Settles O18: the two answers of `step`, and that a run of one step or more needs a first step. -/
theorem haltedAndFaultedAreTerminal : Obligations.HaltedAndFaultedAreTerminal := by
  refine fun s => ⟨step_of_halted, fun f => step_of_faulted, fun hn n t h => ?_⟩
  obtain ⟨u, hu⟩ := exists_step_of_core_run h
  exact hn (run_of_step_next hu)

/-! ## How a cycle ends (R106, R109) -/

/-- Settles O19: an instruction that completes does not fault; every other end of a cycle raises the fault in `s`. -/
theorem faultsArePrecise : Obligations.FaultsArePrecise := by
  have key : ∀ {s : State} {f g : FaultRecord}, (raise s g).run = .faulted f → raise s g = raise s f := by
    intro s f g h
    cases h
    rfl
  intro s t f h hf
  rcases step_next_cases h with ⟨-, i, -, he⟩ | ⟨-, rfl⟩ | ⟨-, -, rfl⟩
  · rcases exec_next_cases he with ⟨u, hu, rfl⟩ | ⟨g, -, rfl⟩
    · exact absurd hf (hu.endOfCycle_safe (run_of_step_next h) _ _ f)
    · exact key hf
  · exact key hf
  · exact key hf

/-- The instruction that signals halt is the one with HALT's identifier (R106, R150). -/
theorem signalsHalt_iff_ident {i : Instr} : signalsHalt i = true ↔ i.ident = 0x01 := by
  cases i with
  | hlt => exact iff_of_true rfl rfl
  | ldi | prn | mul | add | cmp | push | pop | call | ret | st => simp [signalsHalt, Instr.ident]

/-- HALT's handler does not fault. -/
theorem signalsHalt_of_handler_fault {s : State} {i : Instr} {f : FaultRecord}
    (h : handler s i = .error (.fault f)) : signalsHalt i = false := by
  cases i with
  | hlt => cases h
  | ldi | prn | mul | add | cmp | push | pop | call | ret | st => rfl

/-- An instruction in a running engine halts it exactly when it signals halt. -/
theorem halted_iff_signalsHalt_of_exec {i : Instr} {s t : State} (hr : s.run = .running)
    (h : exec i s = .next t) : t.run = .halted ↔ signalsHalt i = true := by
  rcases exec_next_cases h with ⟨u, hu, rfl⟩ | ⟨f, hf, rfl⟩
  · rw [hu.endOfCycle_run, hr]
    cases signalsHalt i <;> simp
  · simp [signalsHalt_of_handler_fault hf]

/-- HALT has a row in the dispatch table (R77). -/
theorem exists_halt_row : ∃ r ∈ dispatchTable, r.id = 0x01 := by decide

/-- Settles O21: the decoded instruction has the identifier of the opcode byte; a fault of the fetch or the decoder
does not halt, and HALT's identifier is in the table. -/
theorem onlyHaltHalts : Obligations.OnlyHaltHalts := by
  intro s t h
  rcases step_next_cases h with ⟨hle, i, hd, he⟩ | ⟨hgt, rfl⟩ | ⟨-, hd, rfl⟩
  · obtain ⟨hid, -, -⟩ := fields_of_decode hd
    rw [halted_iff_signalsHalt_of_exec (run_of_step_next h) he, signalsHalt_iff_ident, hid]
    exact (and_iff_right hle).symm
  · exact iff_of_false nofun fun ⟨hle, _⟩ => absurd hle (Nat.not_le.2 hgt)
  · obtain ⟨r, hr, hrow⟩ := exists_halt_row
    exact iff_of_false nofun fun ⟨_, hop⟩ => no_row_of_decode_error hd r hr (hrow.trans hop.symm)

/-! ## A run under fuel (R111, R178) -/

theorem runFuel_of_not_running {s : State} (h : s.run ≠ .running) (n : Nat) : runFuel n s = .ended s := by
  cases n <;> simp [runFuel, h]

theorem runFuel_zero_of_running {s : State} (h : s.run = .running) : runFuel 0 s = .outOfFuel s := by
  simp [runFuel, h]

theorem runFuel_succ_of_step {s t : State} (h : step s = .next t) (n : Nat) : runFuel (n + 1) s = runFuel n t := by
  simp [runFuel, run_of_step_next h, h]

/-- A run under fuel has ended for good, in a state that is not running, or its fuel ran out in a running state. -/
theorem runFuel_cases (n : Nat) (s : State) :
    (∃ t, t.run ≠ .running ∧ ∀ m, n ≤ m → runFuel m s = .ended t) ∨
      ∃ t, t.run = .running ∧ runFuel n s = .outOfFuel t := by
  induction n generalizing s with
  | zero =>
    by_cases hr : s.run = .running
    · exact .inr ⟨s, hr, runFuel_zero_of_running hr⟩
    · exact .inl ⟨s, hr, fun m _ => runFuel_of_not_running hr m⟩
  | succ n ih =>
    by_cases hr : s.run = .running
    · obtain ⟨u, hu⟩ := exists_step_of_running hr
      rcases ih u with ⟨t, ht, hend⟩ | ⟨t, ht, hout⟩
      · refine .inl ⟨t, ht, fun m hm => ?_⟩
        obtain ⟨k, rfl⟩ := Nat.exists_eq_add_of_le' hm
        exact (runFuel_succ_of_step hu _).trans (hend _ (Nat.le_add_left n k))
      · exact .inr ⟨t, ht, (runFuel_succ_of_step hu n).trans hout⟩
    · exact .inl ⟨s, hr, fun m _ => runFuel_of_not_running hr m⟩

/-- Settles O49: the two cases of `runFuel_cases`. -/
theorem fuelIsNoEndOfARun : Obligations.FuelIsNoEndOfARun := by
  intro n s t
  rcases runFuel_cases n s with ⟨u, hu, hend⟩ | ⟨u, hu, hout⟩
  · rw [hend n (Nat.le_refl n)]
    refine ⟨?_, nofun, nofun⟩
    rintro ⟨⟩
    exact ⟨hu, hend⟩
  · rw [hout]
    refine ⟨nofun, ?_, nofun⟩
    rintro ⟨⟩
    exact hu

end Sys2Proof.Machine
end

section
/-! SUPPORT. The answer of an instruction that neither sets `pc` nor halts, and the settled statements of
41_load_print_store.md. -/

namespace Sys2Proof.Machine

/-! ## A handler's state, advanced (R104) -/

/-- An instruction that completes, does not set `pc` and does not signal halt answers its handler's state with `pc`
advanced. -/
theorem Completes.exec_advanced {i : Instr} {s u : State} (h : Completes s i u) (hpc : i.setsPc = false)
    (hhalt : signalsHalt i = false) : Machine.exec i s = .next (u.setPc (s.pc + 1 + i.aa.toNat)) := by
  obtain ⟨-, hkeep, -⟩ := handler_ok_run_pc (handler_ok_iff.2 h)
  rw [h.exec, hhalt, advance_opcodeByte, hpc, hkeep hpc]
  rfl

/-! ## LDI, PRN and ST (R120, R121, R122) -/

/-- Settles O22: the answer is the write of one register, advanced. -/
theorem ldiLoadsTheImmediate : Obligations.LdiLoadsTheImmediate := by
  intro aa r imm s
  refine ⟨_, (Completes.ldi aa r imm).exec_advanced rfl rfl, ?_, ?_, fun _ => rfl, rfl, rfl, rfl, rfl⟩
  · exact s.reg_setReg_same r imm
  · exact fun q hq => s.reg_setReg_of_ne r q imm (by simpa using hq)

/-- Settles O23: the answer is the emission of the register's value, advanced. -/
theorem prnEmitsTheRegister : Obligations.PrnEmitsTheRegister := fun aa r _ =>
  ⟨_, (Completes.prn aa r).exec_advanced rfl rfl, rfl, fun _ _ => rfl, fun _ => rfl, rfl, rfl, rfl⟩

/-- Settles O24: the answer is the store of one cell, advanced. -/
theorem stStoresTheRegister : Obligations.StStoresTheRegister := by
  intro aa ra rb s
  refine ⟨_, (Completes.st aa ra rb).exec_advanced rfl rfl, ?_, ?_, fun _ _ => rfl, rfl, rfl, rfl, rfl⟩
  · exact s.store_byte_same (s.reg ra) _
  · exact fun c hc => s.store_byte_of_ne (s.reg ra) hc

end Sys2Proof.Machine
end

section
/-! SUPPORT. The exact results of the ALU, FL's values after COMPARE, and the settled statements of 42_alu.md. -/

namespace Sys2Proof.Machine

/-! ## COMPARE (R132) -/

/-- An FL whose bits 7:3 read 0 has nothing that COMPARE keeps. -/
theorem masked_eq_zero {fl : Byte} (h : ∀ n, 3 ≤ n → fl.getLsbD n = false) : fl &&& 0xF8 = 0 := by
  refine BitVec.eq_of_getLsbD_eq fun n hn => ?_
  have hmask : (0xF8 : Byte).getLsbD n = decide (3 ≤ n) := getLsbD_mask n hn
  rw [BitVec.getLsbD_and, hmask]
  rcases Nat.lt_or_ge n 3 with hlow | hhigh
  · simp [Nat.not_le.2 hlow]
  · simp [h n hhigh]

/-- COMPARE's three results on an FL whose bits 7:3 read 0. -/
theorem compareFlags_cases_of_masked {fl : Byte} (h : fl &&& 0xF8 = 0) (a b : Byte) :
    compareFlags fl a b = 0x01 ∨ compareFlags fl a b = 0x02 ∨ compareFlags fl a b = 0x04 := by
  rw [compareFlags_of_masked fl a b h]
  split
  · exact .inr (.inr rfl)
  · split
    · exact .inr (.inl rfl)
    · exact .inl rfl

/-- Settles O26: the answer is the write of FL, advanced, and each flag is the order of the unsigned values. -/
theorem cmpSetsExactlyOneFlag : Obligations.CmpSetsExactlyOneFlag := by
  intro aa ra rb s
  refine ⟨_, (Completes.cmp aa ra rb).exec_advanced rfl rfl, ?equal, ?greater, ?less, ?kept, ?values,
    fun _ _ => rfl, fun _ => rfl, rfl, rfl, rfl⟩
  case equal => simp [flagE_compareFlags, BitVec.toNat_inj]
  case greater => simp [flagG_compareFlags, BitVec.lt_def]
  case less => simp [flagL_compareFlags, BitVec.lt_def]
  case kept => exact fun n hn => compareFlags_getLsbD s.fl (s.reg ra) (s.reg rb) hn
  case values => exact fun h => compareFlags_cases_of_masked (masked_eq_zero h) (s.reg ra) (s.reg rb)

/-! ## ADD and MUL (R130, R131, R133) -/

theorem aluAdd_eq_add (a b : Byte) : aluAdd a b = a + b := rfl

theorem aluMul_eq_mul (a b : Byte) : aluMul a b = a * b := rfl

theorem aluAdd_toNat (a b : Byte) : (aluAdd a b).toNat = (a.toNat + b.toNat) % 256 := BitVec.toNat_ofNat _ _

theorem aluMul_toNat (a b : Byte) : (aluMul a b).toNat = (a.toNat * b.toNat) % 256 := BitVec.toNat_ofNat _ _

/-- The sum of the signed values has the same low eight bits as that of the unsigned ones. -/
theorem aluAdd_eq_ofInt (a b : Byte) : aluAdd a b = BitVec.ofInt 8 (a.toInt + b.toInt) := by
  rw [aluAdd_eq_add, BitVec.ofInt_add, BitVec.ofInt_toInt, BitVec.ofInt_toInt]

/-- The product of the signed values has the same low eight bits as that of the unsigned ones. -/
theorem aluMul_eq_ofInt (a b : Byte) : aluMul a b = BitVec.ofInt 8 (a.toInt * b.toInt) := by
  rw [aluMul_eq_mul, BitVec.ofInt_mul, BitVec.ofInt_toInt, BitVec.ofInt_toInt]

/-- An instruction whose handler writes one register, and that neither sets `pc` nor halts, changes nothing else but
`pc`. -/
theorem Completes.exec_setReg {i : Instr} {s : State} {r : Fin 8} {v : Byte} (h : Completes s i (s.setReg r v))
    (hpc : i.setsPc = false) (hhalt : signalsHalt i = false) :
    ∃ t, Machine.exec i s = .next t ∧ t.reg r = v ∧ sameRegistersBut [r] s t ∧ sameMemory s t ∧ t.fl = s.fl ∧
      t.run = s.run ∧ t.out = s.out ∧ t.pc = s.pc + 1 + i.aa.toNat := by
  refine ⟨_, h.exec_advanced hpc hhalt, ?_, ?_, fun _ => rfl, rfl, rfl, rfl, rfl⟩
  · exact s.reg_setReg_same r v
  · exact fun q hq => s.reg_setReg_of_ne r q v (by simpa using hq)

/-- Settles O25: each answer is the write of the ALU's result, whose unsigned and signed readings are the lemmas
above. -/
theorem addAndMulWrapAt256 : Obligations.AddAndMulWrapAt256 := by
  intro aa ra rb s
  constructor
  · obtain ⟨t, hexec, hreg, hframe⟩ := (Completes.add (s := s) aa ra rb).exec_setReg rfl rfl
    exact ⟨t, hexec, hreg ▸ aluAdd_toNat _ _, hreg ▸ aluAdd_eq_ofInt _ _, hframe⟩
  · obtain ⟨t, hexec, hreg, hframe⟩ := (Completes.mul (s := s) aa ra rb).exec_setReg rfl rfl
    exact ⟨t, hexec, hreg ▸ aluMul_toNat _ _, hreg ▸ aluMul_eq_ofInt _ _, hframe⟩

end Sys2Proof.Machine
end

section
/-! SUPPORT. PUSH and POP, sequences of pushes and of pops, and the settled statements of 43_stack.md. -/

namespace Sys2Proof.Machine

/-! ## PUSH and POP (R140, R141) -/

/-- Settles O27: the answer is the store at the decremented SP, advanced. -/
theorem pushStoresBelowTheStackPointer : Obligations.PushStoresBelowTheStackPointer := by
  intro aa r s hlt
  refine ⟨_, (Completes.push aa r hlt).exec_advanced rfl rfl, ?sp, ?stored, ?memory, ?registers, rfl, rfl, rfl, rfl⟩
  case sp => exact (congrArg BitVec.toNat (s.sp_setReg_same _)).trans (toNat_sub_one (Nat.zero_lt_of_lt hlt))
  case stored => exact (State.store_byte_same _ _ _).trans (State.reg_setReg _ _ _ _)
  case memory => exact fun c hc => State.store_byte_of_ne _ _ hc
  case registers => exact fun q hq => s.reg_setReg_of_ne _ _ _ (by simpa using hq)

/-- Settles O28: PUSH's handler faults, so that the cycle answers the state before. -/
theorem pushOverflowsAtTheEndMarker : Obligations.PushOverflowsAtTheEndMarker :=
  fun aa r s hle => exec_of_handler_fault (handler_push_overflow s aa r hle)

/-- Settles O29: a PUSH that completes stores at SP - 1, which EM < SP puts in EM..254; one that faults stores
nothing. -/
theorem pushNeverStoresBelowTheEndMarker : Obligations.PushNeverStoresBelowTheEndMarker := by
  intro aa a s t h c hc
  rcases exec_next_cases h with ⟨u, hu, rfl⟩ | ⟨f, -, rfl⟩
  · have hlt : s.em.toNat < s.sp.toNat := by
      cases hu with
      | push _ _ hlt => exact hlt
    have hne : (s.sp - 1).toNat ≠ c := by
      have := s.sp.isLt
      rw [toNat_sub_one (Nat.zero_lt_of_lt hlt)]
      omega
    simpa using hu.byte_of_unstored (c := c) (by simpa [storeAddress] using hne)
  · rfl

/-- POP's increment as an unsigned value: `SP_TOP` is below 256, so it does not wrap. -/
theorem popIncrement_sp_toNat (s : State) :
    (popIncrement s).sp.toNat = if s.sp.toNat < 0xF4 then s.sp.toNat + 1 else s.sp.toNat := by
  have hiff : s.sp < Config.spTop ↔ s.sp.toNat < 0xF4 := BitVec.lt_def
  rw [popIncrement_sp]
  by_cases hlt : s.sp.toNat < 0xF4
  · rw [if_pos (hiff.2 hlt), if_pos hlt, BitVec.toNat_add_of_lt (by simp; omega)]
    rfl
  · rw [if_neg (mt hiff.1 hlt), if_neg hlt]

/-- Settles O30: the answer is the write of the byte at SP, then POP's increment, advanced. -/
theorem popLoadsFromTheStackPointer : Obligations.PopLoadsFromTheStackPointer := by
  intro aa r s
  refine ⟨_, (Completes.pop aa r).exec_advanced rfl rfl, ?other, ?r7, ?registers, fun _ => popIncrement_byte _ _,
    popIncrement_fl _, popIncrement_run _, popIncrement_out _, rfl⟩
  case other =>
    intro hr
    constructor
    · exact (popIncrement_reg_of_ne _ _ hr).trans (s.reg_setReg_same _ _)
    · exact (popIncrement_sp_toNat _).trans (by rw [s.sp_setReg_of_ne _ _ hr])
  case r7 =>
    rintro rfl
    exact (popIncrement_sp_toNat _).trans (by rw [State.sp_setReg_same])
  case registers =>
    intro q hq
    obtain ⟨hr, hsp⟩ : q ≠ r ∧ q ≠ 7 := by simpa using hq
    exact (popIncrement_reg_of_ne _ _ hsp).trans (s.reg_setReg_of_ne _ _ _ hr)

/-- Settles O44: PUSH stores where POP loads. POP loads R7 with SP - 1, below 0xF4, and increments it. -/
theorem pushThenPopRestores : Obligations.PushThenPopRestores := by
  intro aa aa' r s hlt htop
  obtain ⟨t, ht, hsp, hstored, -, hregs, hfl, hrun, hout, -⟩ := pushStoresBelowTheStackPointer aa r s hlt
  obtain ⟨u, hu, hother, h7, hregs', -, hfl', hrun', hout', -⟩ := popLoadsFromTheStackPointer aa' r t
  refine ⟨t, u, ht, hu, fun q _ => ?_, hfl'.trans hfl, hout'.trans hout, hrun'.trans hrun⟩
  have hdec := toNat_sub_one (Nat.zero_lt_of_lt hlt)
  have hbyte : t.byte t.sp.toNat = if r = 7 then s.sp - 1 else s.reg r := by rw [hsp, ← hdec, hstored]
  by_cases hq : q = 7
  · subst hq
    refine BitVec.eq_of_toNat_eq (show u.sp.toNat = s.sp.toNat from ?_)
    by_cases hr : r = 7
    · rw [h7 hr, hbyte, if_pos hr, hdec, if_pos (by omega)]
      omega
    · rw [(hother hr).2, hsp, if_pos (by omega)]
      omega
  · by_cases hqr : q = r
    · subst hqr
      rw [(hother hq).1, hbyte, if_neg hq]
    · rw [hregs' q (by simp [hq, hqr]), hregs q (by simp [hq])]

/-! ## A sequence of instructions -/

theorem execAll_cons_of_running {i : Instr} {s t : State} (h : exec i s = .next t) (hr : t.run = .running)
    (is : List Instr) : execAll (i :: is) s = execAll is t := by
  simp [execAll, h, hr]

theorem execAll_cons_of_ended {i : Instr} {s t : State} (h : exec i s = .next t) (hr : t.run ≠ .running)
    (is : List Instr) : execAll (i :: is) s = .next t := by
  simp [execAll, h, hr]

/-- A sequence whose first part leaves the engine running goes on with the rest. -/
theorem execAll_append_of_running {is : List Instr} {s t : State} (h : execAll is s = .next t) (hr : t.run = .running)
    (js : List Instr) : execAll (is ++ js) s = execAll js t := by
  induction is generalizing s with
  | nil =>
    cases h
    rfl
  | cons i is ih =>
    cases he : exec i s with
    | next v =>
      by_cases hv : v.run = .running
      · rw [List.cons_append, execAll_cons_of_running he hv]
        exact ih ((execAll_cons_of_running he hv is).symm.trans h)
      · cases (execAll_cons_of_ended he hv is).symm.trans h
        exact absurd hr hv
    | fault f | refused f => simp [execAll, he] at h

/-! ## A sequence of pushes (R140, R143, R192) -/

/-- The pushes of a list of AA fields and registers. -/
abbrev pushAll (ps : List (BitVec 2 × Fin 8)) : List Instr := ps.map fun p => .push p.1 (regByte p.2)

/-- What a push of `r` stores after `k` other pushes from `s`: the register's value, or for R7 the decremented SP
(decision D24). -/
def pushedValue (s : State) (k : Nat) (r : Fin 8) : Byte := if r = 7 then s.sp - BitVec.ofNat 8 (k + 1) else s.reg r

/-- After a push, what the later pushes store is counted from one place further. -/
theorem pushedValue_of_push {s t : State} (hsp : t.sp = s.sp - 1) (hregs : sameRegistersBut [7] s t) (k : Nat)
    (r : Fin 8) : pushedValue t k r = pushedValue s (k + 1) r := by
  unfold pushedValue
  by_cases hr : r = 7
  · rw [if_pos hr, if_pos hr, hsp, BitVec.sub_sub, BitVec.add_comm]
    exact congrArg (s.sp - ·) (BitVec.ofNat_add (k + 1) 1).symm
  · rw [if_neg hr, if_neg hr, hregs r (by simpa using hr)]

/-- Pushes that do not overflow complete: each stores its value one cell below the one before, and no byte from
the first SP on changes. -/
theorem execAll_pushAll (ps : List (BitVec 2 × Fin 8)) (s : State) (hrun : s.run = .running)
    (hroom : ps.length ≤ s.sp.toNat - s.em.toNat) :
    ∃ t, execAll (pushAll ps) s = .next t ∧ t.run = .running ∧ t.sp.toNat = s.sp.toNat - ps.length ∧
      sameRegistersBut [7] s t ∧ (∀ c, s.sp.toNat ≤ c → t.byte c = s.byte c) ∧
      ∀ k p, ps[k]? = some p → t.byte (s.sp.toNat - (k + 1)) = pushedValue s k p.2 := by
  induction ps generalizing s with
  | nil => exact ⟨s, rfl, hrun, rfl, fun _ _ => rfl, fun _ _ => rfl, nofun⟩
  | cons p ps ih =>
    rw [List.length_cons] at hroom
    obtain ⟨t, ht, htsp, htstored, htmem, htregs, -, htrun, -⟩ :=
      pushStoresBelowTheStackPointer p.1 p.2 s (by omega)
    have hdec : (s.sp - 1).toNat = s.sp.toNat - 1 := toNat_sub_one (by omega)
    have htem : t.em = s.em := htregs 4 (by decide)
    obtain ⟨u, hu, hurun, husp, huregs, humem, hustored⟩ := ih t (htrun.trans hrun) (by rw [htem]; omega)
    refine ⟨u, (execAll_cons_of_running ht (htrun.trans hrun) _).trans hu, hurun, ?sp, ?registers, ?above, ?stored⟩
    case sp => rw [husp, htsp, List.length_cons]; omega
    case registers => exact fun q hq => (huregs q hq).trans (htregs q hq)
    case above => exact fun c hc => (humem c (by omega)).trans (htmem c (by omega))
    case stored =>
      intro k q hk
      cases k with
      | zero =>
        cases hk
        rw [humem _ (by omega), ← hdec]
        exact htstored
      | succ k =>
        have hsp : t.sp = s.sp - 1 := BitVec.eq_of_toNat_eq (htsp.trans hdec.symm)
        rw [← pushedValue_of_push hsp htregs, ← hustored k q hk, htsp, Nat.sub_sub, Nat.add_comm 1]

/-- One push too many: the first SP - EM pushes complete, and the next one overflows in the state `t` they leave. -/
theorem execAll_pushAll_of_overflow (ps : List (BitVec 2 × Fin 8)) (s : State) (hrun : s.run = .running)
    (hover : s.sp.toNat - s.em.toNat < ps.length) :
    ∃ t, execAll (pushAll ps) s = .next (raise t (.stackOverflow t.pc t.sp t.em)) ∧ sameRegistersBut [7] s t ∧
      t.sp.toNat = min s.sp.toNat s.em.toNat := by
  obtain ⟨fits, p, rest, rfl, hlen⟩ : ∃ fits p rest, ps = fits ++ p :: rest ∧
      fits.length = s.sp.toNat - s.em.toNat :=
    ⟨_, _, _, (List.take_append_drop _ ps).symm.trans (by rw [List.drop_eq_getElem_cons hover]),
      List.length_take_of_le hover.le⟩
  obtain ⟨t, ht, htrun, htsp, htregs, -⟩ := execAll_pushAll fits s hrun hlen.le
  have hsp : t.sp.toNat = min s.sp.toNat s.em.toNat := by rw [htsp, hlen]; omega
  have hem : t.em = s.em := htregs 4 (by decide)
  refine ⟨t, ?_, htregs, hsp⟩
  rw [pushAll, List.map_append, execAll_append_of_running ht htrun]
  exact execAll_cons_of_ended (pushOverflowsAtTheEndMarker p.1 p.2 t (by rw [hsp, hem]; omega)) nofun _

/-- The load of an image leaves SP at 0xF4 and EM at the image's length, and the engine running (R190, R191). -/
theorem run_sp_em_of_load {image : List Byte} {s : State} (h : load image = .ok s) :
    s.run = .running ∧ s.sp.toNat = 0xF4 ∧ s.em.toNat = image.length := by
  rcases Nat.lt_or_ge 255 image.length with hgt | hle
  · cases (if_neg (Nat.not_le.2 hgt) : load image = .error _).symm.trans h
  · obtain ⟨t, ht, hem, hsp, -⟩ := loadedRegistersAndMemory.2 image hle
    cases ht.symm.trans h
    cases (load_of_le hle).symm.trans h
    exact ⟨rfl, congrArg BitVec.toNat hsp, hem⟩

/-- Settles O46: the first SP - EM pushes complete, which leaves SP at EM or below, where the next one overflows. -/
theorem pushCapacity : Obligations.PushCapacity := by
  refine ⟨fun ps s hrun => ?_, fun image s h => ?_⟩
  · rcases Nat.lt_or_ge (s.sp.toNat - s.em.toNat) ps.length with hover | hfits
    · obtain ⟨t, ht, hregs, hsp⟩ := execAll_pushAll_of_overflow ps s hrun hover
      exact ⟨_, ht, hregs, fun h => absurd hover (Nat.not_lt.2 h), fun _ => ⟨⟨t.pc, rfl⟩, hsp⟩⟩
    · obtain ⟨t, ht, htrun, htsp, hregs, -⟩ := execAll_pushAll ps s hrun hfits
      exact ⟨t, ht, hregs, fun _ => ⟨htrun, htsp⟩, fun h => absurd h (Nat.not_lt.2 hfits)⟩
  · obtain ⟨hrun, hsp, hem⟩ := run_sp_em_of_load h
    exact ⟨hrun, by rw [hsp, hem]⟩

/-! ## A sequence of pops (R141, R143) -/

/-- The pops of a list of AA fields and registers. -/
abbrev popAll (qs : List (BitVec 2 × Fin 8)) : List Instr := qs.map fun q => .pop q.1 (regByte q.2)

/-- Pops of registers other than R7, none past 0xF4, move SP up by one each; where they name different registers, each
of these holds the byte as many places above the first SP as there were pops before its own. -/
theorem execAll_popAll (qs : List (BitVec 2 × Fin 8)) (s : State) (hrun : s.run = .running)
    (h7 : ∀ q ∈ qs, q.2 ≠ 7) (htop : s.sp.toNat + qs.length ≤ 0xF4) :
    ∃ t, execAll (popAll qs) s = .next t ∧ t.run = .running ∧ t.sp.toNat = s.sp.toNat + qs.length ∧
      sameRegistersBut (7 :: qs.map Prod.snd) s t ∧
      ((qs.map Prod.snd).Nodup → ∀ k q, qs[k]? = some q → t.reg q.2 = s.byte (s.sp.toNat + k)) := by
  induction qs generalizing s with
  | nil => exact ⟨s, rfl, hrun, rfl, fun _ _ => rfl, fun _ => nofun⟩
  | cons q qs ih =>
    rw [List.length_cons] at htop
    obtain ⟨hq, hqs⟩ := List.forall_mem_cons.1 h7
    obtain ⟨t, ht, hloaded, -, htregs, htmem, -, htrun, -⟩ := popLoadsFromTheStackPointer q.1 q.2 s
    obtain ⟨htreg, htsp⟩ := hloaded hq
    rw [if_pos (by omega)] at htsp
    obtain ⟨u, hu, hurun, husp, huregs, huloaded⟩ := ih t (htrun.trans hrun) hqs (by omega)
    refine ⟨u, (execAll_cons_of_running ht (htrun.trans hrun) _).trans hu, hurun, ?sp, ?registers, ?loaded⟩
    case sp => rw [husp, htsp, List.length_cons]; omega
    case registers =>
      intro r hr
      obtain ⟨hr7, hrq, hrqs⟩ : r ≠ 7 ∧ r ≠ q.2 ∧ r ∉ qs.map Prod.snd := by
        simpa only [List.map_cons, List.mem_cons, not_or] using hr
      exact (huregs r (List.not_mem_cons_of_ne_of_not_mem hr7 hrqs)).trans (htregs r (by simp [hr7, hrq]))
    case loaded =>
      intro hnodup k p hk
      obtain ⟨hnot, hnodup⟩ := List.nodup_cons.1 hnodup
      cases k with
      | zero =>
        cases hk
        exact (huregs _ (List.not_mem_cons_of_ne_of_not_mem hq hnot)).trans htreg
      | succ k =>
        rw [huloaded hnodup k p hk, htmem, htsp, Nat.add_assoc, Nat.add_comm 1]

/-- Settles O45: the pop `k` places from the end of N reads the cell `k + 1` below the first SP, where the push `k`
places from the beginning stored. -/
theorem pushesThenPopsReverse : Obligations.PushesThenPopsReverse := by
  intro ps qs s hrun hlen h7 hroom htop
  obtain ⟨t, ht, htrun, htsp, htregs, -, htstored⟩ := execAll_pushAll ps s hrun (by omega)
  obtain ⟨u, hu, hurun, husp, huregs, huloaded⟩ := execAll_popAll qs t htrun h7 (by omega)
  have hsp : u.sp = s.sp := BitVec.eq_of_toNat_eq (by omega)
  refine ⟨u, (execAll_append_of_running ht htrun _).trans hu, hurun, hsp, ?registers, ?values⟩
  case registers =>
    intro r hr
    by_cases hr7 : r = 7
    · rw [hr7]
      exact hsp
    · exact (huregs r (List.not_mem_cons_of_ne_of_not_mem hr7 hr)).trans (htregs r (by simpa using hr7))
  case values =>
    intro hnodup k p q hp hq
    obtain ⟨hk, -⟩ := List.getElem?_eq_some_iff.1 hp
    rw [List.getElem?_reverse (hlen ▸ hk)] at hq
    rw [huloaded hnodup _ q hq, show t.sp.toNat + (qs.length - 1 - k) = s.sp.toNat - (k + 1) by omega]
    exact htstored k p hp

end Sys2Proof.Machine
end

section
/-! SUPPORT. The answer of an instruction that sets `pc` itself, the stack pointer's edges under `SP_EDGE = refuse`, and
the settled statements of 44_control.md. -/

namespace Sys2Proof.Machine

/-! ## HLT, CALL and RET (R150, R152, R153) -/

theorem exec_hlt (aa : BitVec 2) (s : State) :
    exec (.hlt aa) s = .next { s.setPc (s.pc + 1 + aa.toNat) with run := .halted } := by
  rw [(Completes.hlt aa).exec, advance_opcodeByte]
  rfl

/-- Settles O31: the answer is the state itself, advanced and then halted. -/
theorem hltHaltsAfterTheAdvance : Obligations.HltHaltsAfterTheAdvance := fun aa s =>
  ⟨_, exec_hlt aa s, rfl, rfl, fun _ _ => rfl, fun _ => rfl, rfl, rfl⟩

/-- An instruction that completes, sets `pc` itself and does not signal halt answers its handler's state (R105). -/
theorem Completes.exec_of_setsPc {i : Instr} {s u : State} (h : Completes s i u) (hpc : i.setsPc = true)
    (hhalt : signalsHalt i = false) : Machine.exec i s = .next u := by
  rw [h.exec, hhalt, advance_opcodeByte, hpc]
  rfl

/-- The decrement of CALL as an unsigned value: from 0 it wraps to 255 (D7). -/
theorem toNat_sub_one_mod (v : Byte) : (v - 1).toNat = (v.toNat + 255) % 256 := by
  rw [BitVec.toNat_sub, Nat.add_comm]
  rfl

/-- Settles O32: the answer is the handler's state, a write of SP, a store at the new SP and a jump. -/
theorem callPushesTheReturnAddressAndJumps : Obligations.CallPushesTheReturnAddressAndJumps := by
  intro aa r s
  refine ⟨_, (Completes.call aa r).exec_of_setsPc rfl rfl, ?sp, ?stored, ?inCycle, ?memory, ?target, ?registers,
    rfl, rfl, rfl⟩
  case sp => exact (congrArg BitVec.toNat (s.sp_setReg_same _)).trans (toNat_sub_one_mod _)
  case stored => exact State.store_byte_same _ _ _
  case inCycle =>
    exact fun hle => (congrArg BitVec.toNat (State.store_byte_same _ _ _)).trans (returnAddress_toNat hle)
  case memory => exact fun c hc => State.store_byte_of_ne _ _ hc
  case target => exact congrArg BitVec.toNat (s.reg_setReg _ _ _)
  case registers => exact fun q hq => s.reg_setReg_of_ne _ _ _ (by simpa using hq)

/-- Settles O33: the answer is the handler's state, a write of SP and a jump. -/
theorem retPopsTheProgramCounter : Obligations.RetPopsTheProgramCounter := by
  intro aa s
  refine ⟨_, (Completes.ret aa).exec_of_setsPc rfl rfl, rfl, ?sp, ?registers, fun _ => rfl, rfl, rfl, rfl⟩
  case sp => exact (congrArg BitVec.toNat (s.sp_setReg_same _)).trans (BitVec.toNat_add _ _)
  case registers => exact fun q hq => s.reg_setReg_of_ne _ _ _ (by simpa using hq)

/-! ## A CALL and the RET that finds its return address (R155) -/

theorem sp_of_exec_call {aa : BitVec 2} {r : Fin 8} {s t : State}
    (h : exec (.call aa (regByte r)) s = .next t) : t.sp = s.sp - 1 := by
  cases ((Completes.call aa r).exec_of_setsPc rfl rfl).symm.trans h
  exact s.sp_setReg_same _

/-- Settles O47: RET reads the return address where CALL stored it, and its increment undoes CALL's decrement, also
where both wrap. -/
theorem callThenReturnResumes : Obligations.CallThenReturnResumes := by
  intro aa aa' r s t u hle hcall hsp hbyte
  have hspu : u.sp + 1 = s.sp := by rw [hsp, sp_of_exec_call hcall, BitVec.sub_add_cancel]
  have hpc : (u.byte u.sp.toNat).toNat = s.pc + 2 := by
    rw [hbyte, byte_sp_of_exec_call hcall, returnAddress_toNat hle]
  rw [(Completes.ret aa').exec_of_setsPc rfl rfl, hspu, hpc]
  rfl

/-! ## The stack pointer's edges under `SP_EDGE = refuse` (D7) -/

theorem spDecrement_refuse_zero : spDecrement .refuse 0 = .error (.refuse .spBelowZero) := rfl

theorem spDecrement_refuse_of_ne {sp : Byte} (h : sp ≠ 0) : spDecrement .refuse sp = spDecrement .wrap sp := if_neg h

theorem spIncrement_refuse_max : spIncrement .refuse 0xFF = .error (.refuse .spAboveMax) := rfl

theorem spIncrement_refuse_of_ne {sp : Byte} (h : sp ≠ 0xFF) : spIncrement .refuse sp = spIncrement .wrap sp :=
  if_neg h

/-- CALL's handler with a legal register refuses where the decrement of SP does. -/
theorem callHandler_of_spDecrement_error {e : Config.SpEdge} {s : State} {x : Stop}
    (h : spDecrement e s.sp = .error x) (r : Fin 8) : callHandler e (regByte r) s = .error x := by
  rw [callHandler, regOperand_regByte, h]
  rfl

/-- CALL's handler depends on `SP_EDGE` through the decrement of SP alone. -/
theorem callHandler_congr {e e' : Config.SpEdge} {s : State} (h : spDecrement e s.sp = spDecrement e' s.sp)
    (a : Byte) : callHandler e a s = callHandler e' a s := by
  rw [callHandler, callHandler, h]

/-- RETURN's handler refuses where the increment of SP does. -/
theorem retHandler_of_spIncrement_error {e : Config.SpEdge} {s : State} {x : Stop}
    (h : spIncrement e s.sp = .error x) : retHandler e s = .error x := by
  rw [retHandler, memRead_toNat, h]
  rfl

/-- RETURN's handler depends on `SP_EDGE` through the increment of SP alone. -/
theorem retHandler_congr {e e' : Config.SpEdge} {s : State} (h : spIncrement e s.sp = spIncrement e' s.sp) :
    retHandler e s = retHandler e' s := by
  rw [retHandler, retHandler, h]

/-- Settles O36: the handlers meet `SP_EDGE` in the decrement and the increment of SP, whose two values differ at one
edge each. -/
theorem spEdgeRefuseDiffersOnlyAtTheEdge : Obligations.SpEdgeRefuseDiffersOnlyAtTheEdge := by
  refine ⟨rfl, fun r s => ⟨fun hzero => ?_, fun hne => ?_, fun hmax => ?_, fun hne => ?_⟩⟩
  · exact callHandler_of_spDecrement_error (hzero ▸ spDecrement_refuse_zero) r
  · exact callHandler_congr (spDecrement_refuse_of_ne hne) _
  · exact retHandler_of_spIncrement_error (hmax ▸ spIncrement_refuse_max)
  · exact retHandler_congr (spIncrement_refuse_of_ne hne)

end Sys2Proof.Machine
end

section
/-! SUPPORT. The first fault of a cycle against the model's handlers, the codes of a run's end, the trace, and
the settled statements of 60_exceptions.md. -/

namespace Sys2Proof.Machine

/-! ## Illegal register operands (R164) -/

@[simp] theorem firstRegisterFault_nil (pc : Nat) : firstRegisterFault pc [] = none := rfl

/-- An illegal operand byte is the first one, whatever follows it. -/
theorem firstRegisterFault_cons_of_le {b : Byte} (h : 8 ≤ b.toNat) (pc : Nat) (bs : List Byte) :
    firstRegisterFault pc (b :: bs) = some (.registerIndexFault pc b) := by
  simp [firstRegisterFault, h]

/-- A legal operand byte is passed over. -/
@[simp] theorem firstRegisterFault_cons_regByte (r : Fin 8) (pc : Nat) (bs : List Byte) :
    firstRegisterFault pc (regByte r :: bs) = firstRegisterFault pc bs := by
  simp [firstRegisterFault]

/-- What an instruction with an illegal register operand answers. -/
theorem exec_of_firstRegisterFault {i : Instr} {s : State} {f : FaultRecord}
    (h : firstRegisterFault s.pc i.regOperands = some f) : exec i s = .next (raise s f) :=
  exec_of_handler_fault (handler_of_firstRegisterFault h)

/-- Settles O34: each of the nine instructions has opA as its first register operand. -/
theorem illegalFirstRegisterOperandFaults : Obligations.IllegalFirstRegisterOperandFaults := by
  intro aa a b s ha i hi
  obtain ⟨bs, hops⟩ : ∃ bs, i.regOperands = a :: bs := by
    simp only [List.mem_cons, List.not_mem_nil, or_false] at hi
    rcases hi with rfl | rfl | rfl | rfl | rfl | rfl | rfl | rfl | rfl <;> exact ⟨_, rfl⟩
  exact exec_of_firstRegisterFault (hops ▸ firstRegisterFault_cons_of_le ha s.pc bs)

/-- Settles O35: each of the four instructions has opA and opB as its register operands, and opA is passed over. -/
theorem illegalSecondRegisterOperandFaults : Obligations.IllegalSecondRegisterOperandFaults := by
  intro aa r b s hb i hi
  have hops : i.regOperands = [regByte r, b] := by
    simp only [List.mem_cons, List.not_mem_nil, or_false] at hi
    rcases hi with rfl | rfl | rfl | rfl <;> rfl
  apply exec_of_firstRegisterFault
  rw [hops, firstRegisterFault_cons_regByte, firstRegisterFault_cons_of_le hb]

/-! ## The first fault of a cycle (R166) -/

/-- The faults of R166's list that the instruction itself can meet: its register operands (item 3), then PUSH's stack
bound (item 4). `handler_fault_iff` ties it to the handlers, `firstFault_of_decode_ok` to R166's list. -/
def firstInstrFault (s : State) (i : Instr) : Option FaultRecord :=
  (firstRegisterFault s.pc i.regOperands).or
    (if i.ident = 0x05 ∧ s.sp.toNat ≤ s.em.toNat then some (.stackOverflow s.pc s.sp s.em) else none)

/-- PUSH has an identifier of its own (R77). -/
theorem exists_push_of_ident {i : Instr} (h : i.ident = 0x05) : ∃ aa a, i = .push aa a := by
  cases i with
  | push aa a => exact ⟨aa, a, rfl⟩
  | ldi | prn | hlt | mul | add | cmp | pop | call | ret | st => simp [Instr.ident] at h

/-- A handler faults exactly with the first fault that its instruction meets. -/
theorem handler_fault_iff {s : State} {i : Instr} {f : FaultRecord} :
    handler s i = .error (.fault f) ↔ firstInstrFault s i = some f := by
  rw [firstInstrFault, Option.or_eq_some_iff]
  constructor
  · intro h
    rcases handler_fault_cases h with hf | ⟨aa, r, rfl, hle, rfl⟩
    · exact .inl hf
    · exact .inr ⟨firstRegisterFault_cons_regByte r s.pc [], if_pos ⟨rfl, hle⟩⟩
  · rintro (hf | ⟨hnone, hf⟩)
    · exact handler_of_firstRegisterFault hf
    · obtain ⟨⟨hid, hle⟩, ⟨⟩⟩ := Option.ite_none_right_eq_some.1 hf
      obtain ⟨aa, a, rfl⟩ := exists_push_of_ident hid
      rcases regOperand_cases s a with ⟨r, rfl, -⟩ | ⟨ha, -⟩
      · exact handler_push_overflow s aa r hle
      · cases (firstRegisterFault_cons_of_le ha s.pc []).symm.trans hnone

/-- R166's list after a fetch past the end: the first of the three addresses that is out of range (R102). -/
theorem firstFault_of_pc_gt {s : State} (h : 253 < s.pc) :
    firstFault s = some (.addressFault (max s.pc 256) s.pc) := by
  unfold firstFault
  split
  · rw [Nat.max_eq_left ‹_›]
  · split
    · rw [show max s.pc 256 = s.pc + 1 by omega]
    · rw [if_pos (by omega), show max s.pc 256 = s.pc + 2 by omega]

/-- R166's list for a triple that decodes: what is left of it are the instruction's own faults. -/
theorem firstFault_of_decode_ok {s : State} {i : Instr} (hle : s.pc ≤ 253) (hd : decode (fetchedBytes s) = .ok i) :
    firstFault s = firstInstrFault s i := by
  obtain ⟨hid, -, hops⟩ := fields_of_decode hd
  have hbound : (s.sp.toNat : Int) - 1 < s.em.toNat ↔ s.sp.toNat ≤ s.em.toNat := by omega
  unfold firstFault
  rw [if_neg (by omega), if_neg (by omega), if_neg (by omega), ← hid]
  cases i with
  | mul _ a b | add _ a b | cmp _ a b | st _ a b =>
    obtain ⟨rfl, rfl⟩ : a = s.byte (s.pc + 1) ∧ b = s.byte (s.pc + 2) := by simpa [Instr.operandBytes] using hops
    simp [firstInstrFault, Instr.ident, Instr.regOperands]
  | ldi _ a | prn _ a | pop _ a | call _ a | push _ a =>
    obtain rfl : a = s.byte (s.pc + 1) := (List.cons_prefix_cons.1 hops).1
    simp [firstInstrFault, Instr.ident, Instr.regOperands, hbound]
  | hlt | ret => simp [firstInstrFault, Instr.ident, Instr.regOperands]

/-- R166's list for a triple that is rejected: every identifier it names has a row of the table, so none is the
opcode byte's. -/
theorem firstFault_of_decode_error {s : State} {e : Reject} (hle : s.pc ≤ 253)
    (hd : decode (fetchedBytes s) = .error e) : firstFault s = some (.unknownInstruction (s.byte s.pc) s.pc) := by
  have hout : ∀ {ids : List (BitVec 6)}, ids ⊆ dispatchTable.map Row.id → opId (s.byte s.pc) ∉ ids := by
    intro ids hsub hmem
    obtain ⟨r, hr, hrow⟩ := List.mem_map.1 (hsub hmem)
    exact no_row_of_decode_error hd r hr hrow
  have hpush : opId (s.byte s.pc) ≠ 0x05 := fun h => hout (ids := [0x05]) (by decide) (List.mem_singleton.2 h)
  unfold firstFault
  rw [if_neg (by omega), if_neg (by omega), if_neg (by omega), if_neg (hout (by decide)), if_neg (hout (by decide)),
    if_neg hpush, if_neg (hout (by decide))]

/-- An instruction in a running engine faults exactly as its handler does. -/
theorem faulted_iff_handler_fault_of_exec {i : Instr} {s t : State} {f : FaultRecord} (hr : s.run = .running)
    (h : exec i s = .next t) : t.run = .faulted f ↔ handler s i = .error (.fault f) := by
  rcases exec_next_cases h with ⟨u, hu, rfl⟩ | ⟨g, hg, rfl⟩
  · rw [handler_ok_iff.2 hu]
    exact iff_of_false (hu.endOfCycle_safe hr _ _ f) nofun
  · simp [hg]

/-- Settles O20: each way a cycle can begin leaves one part of R166's list, and the handlers follow the last one. -/
theorem firstFaultInPriorityOrder : Obligations.FirstFaultInPriorityOrder := by
  intro s t h f
  rcases step_next_cases h with ⟨hle, i, hd, he⟩ | ⟨hgt, rfl⟩ | ⟨hle, hd, rfl⟩
  · rw [faulted_iff_handler_fault_of_exec (run_of_step_next h) he, handler_fault_iff, firstFault_of_decode_ok hle hd]
  · simp [firstFault_of_pc_gt hgt]
  · simp [firstFault_of_decode_error hle hd]

/-! ## The codes of a run's end (R168) -/

/-- The exit codes in the order of the status codes they stand for (`Run.exitCode_eq`). -/
def exitCodeTable (c : Config.ExitCodes) : List Nat :=
  [0, c.addressFault, c.unknownInstruction, c.stackOverflow, c.registerIndex]

theorem exitCodeTable_nodup (c : Config.ExitCodes) : (exitCodeTable c).Nodup :=
  List.nodup_cons.2 ⟨c.nonzero, c.distinct⟩

/-- The exit code is looked up under the status code. -/
theorem Run.exitCode_eq (c : Config.ExitCodes) (r : Run) :
    r.exitCode c = r.statusCode.bind fun n => (exitCodeTable c)[n]? := by
  cases r with
  | running | halted => rfl
  | faulted f => cases f <;> rfl

@[simp] theorem exitCodeTable_length (c : Config.ExitCodes) : (exitCodeTable c).length = 5 := rfl

theorem Run.statusCode_lt {r : Run} {n : Nat} (h : r.statusCode = some n) : n < 5 := by
  cases r with
  | running => cases h
  | halted => cases h; decide
  | faulted f =>
    cases h
    cases f <;> simp [FaultRecord.statusCode]

/-- Two ends have the same exit code exactly when they have the same status code: the table has no entry twice. -/
theorem Run.exitCode_eq_iff (c : Config.ExitCodes) {r r' : Run} :
    r.exitCode c = r'.exitCode c ↔ r.statusCode = r'.statusCode := by
  rw [Run.exitCode_eq, Run.exitCode_eq]
  cases h : r.statusCode with
  | none =>
    cases h' : r'.statusCode with
    | none => simp
    | some m => simpa using Run.statusCode_lt h'
  | some n =>
    have hn := Run.statusCode_lt h
    cases h' : r'.statusCode with
    | none => simpa using hn
    | some m => simpa using List.getElem?_inj hn (exitCodeTable_nodup c)

theorem Run.statusCode_eq_halted {r : Run} : r.statusCode = Run.halted.statusCode ↔ r = .halted := by
  cases r with
  | running | halted => simp [Run.statusCode]
  | faulted f => cases f <;> simp [Run.statusCode, FaultRecord.statusCode]

theorem Run.statusCode_eq_running {r : Run} : r.statusCode = Run.running.statusCode ↔ r = .running := by
  cases r with
  | running | halted | faulted => simp [Run.statusCode]

/-- Settles O50: the status codes are the definition's, and 0 and none are the exit codes of Halted and Running. -/
theorem statusAndExitCodesTellTheEndsApart : Obligations.StatusAndExitCodesTellTheEndsApart :=
  ⟨⟨rfl, rfl, fun _ _ => rfl, fun _ _ => rfl, fun _ _ _ => rfl, fun _ _ => rfl⟩, fun c _ _ =>
    ⟨(Run.exitCode_eq_iff c (r' := .halted)).trans Run.statusCode_eq_halted,
      (Run.exitCode_eq_iff c (r' := .running)).trans Run.statusCode_eq_running, Run.exitCode_eq_iff c⟩⟩

/-! ## The trace (R176) -/

theorem State.x_toList (s : State) : s.x.toList = (List.finRange 8).map s.reg := by
  refine List.ext_getElem (by simp) fun n _ _ => ?_
  simp [State.reg, Vector.get_eq_getElem]

theorem trace_bytes_of_le {s : State} (h : s.pc ≤ 253) : (trace s).bytes = (fetchedBytes s).map some := by
  simp only [trace, List.map_cons, List.map_nil, memRead_of_lt (show s.pc < 256 by omega),
    memRead_of_lt (show s.pc + 1 < 256 by omega), memRead_of_lt (show s.pc + 2 < 256 by omega), Except.toOption]

theorem pc_le_of_fetch_eq_ok {s : State} {tr : Triple} (h : fetch s = .ok tr) : s.pc ≤ 253 := by
  by_contra hgt
  cases (fetch_of_gt (Nat.lt_of_not_le hgt)).symm.trans h

/-- Settles O51: the snapshot's bytes are those the fetch delivers, and no field of it reads FL, `out` or `run`. -/
theorem traceShowsTheStateACycleStartsFrom : Obligations.TraceShowsTheStateACycleStartsFrom := by
  refine ⟨fun s hle => ?_, fun s tr hf => ?_, fun _ _ _ _ => rfl⟩
  · exact congrArg₂ (TraceSnapshot.mk s.pc) (trace_bytes_of_le hle) s.x_toList
  · obtain rfl := fetch_eq_ok hf
    exact trace_bytes_of_le (pc_le_of_fetch_eq_ok hf)

end Sys2Proof.Machine
end

section
/-! SUPPORT. The load of an image taken apart, and the settled statement of 70_reset_and_hazards.md. -/

namespace Sys2Proof.Machine

/-- An image that loads fits, and gives the state of `load_of_le` (R190, R191). -/
theorem load_eq_ok {image : List Byte} {t : State} (h : load image = .ok t) :
    image.length ≤ 255 ∧ t = { State.reset with mem := Memory.writeAll [] 0 image }.setReg Config.emReg
      (BitVec.ofNat 8 image.length) := by
  rcases Nat.lt_or_ge 255 image.length with hgt | hle
  · cases (if_neg (Nat.not_le.2 hgt) : load image = .error _).symm.trans h
  · cases (load_of_le hle).symm.trans h
    exact ⟨hle, rfl⟩

theorem Inv.reset : Inv State.reset where
  memory := State.reset_mem_wf
  pc := Nat.zero_le _
  flags := .inl rfl
  record := nofun

/-- Replacing the memory by a canonical one keeps the invariant of a state that has not faulted. -/
theorem Inv.withMem {s : State} (h : Inv s) (hs : s.safe) {m : Memory} (hm : Memory.wf m) :
    Inv { s with mem := m } where
  memory := hm
  pc := h.pc
  flags := h.flags
  record := fun f hf => absurd hf (hs f)

/-- A register write keeps the invariant of a state that has not faulted. -/
theorem Inv.setReg {s : State} (h : Inv s) (hs : s.safe) (r : Fin 8) (v : Byte) : Inv (s.setReg r v) where
  memory := h.memory
  pc := h.pc
  flags := h.flags
  record := fun f hf => absurd hf (hs f)

/-- Settles O53: the load changes the reset state by the bytes of an image below 256, which keep memory canonical, and
by a write of EM. -/
theorem resetAndLoadMeetTheInvariant : Obligations.ResetAndLoadMeetTheInvariant := by
  refine ⟨Inv.reset, fun image t h => ?_⟩
  obtain ⟨hlen, rfl⟩ := load_eq_ok h
  have hmem : Memory.wf (Memory.writeAll [] 0 image) := Memory.wf_writeAll 0 Memory.wf_nil image (by omega)
  exact (Inv.reset.withMem nofun hmem).setReg nofun _ _

end Sys2Proof.Machine
end

section
/-! SUPPORT. The settled statement of 70_reset_and_hazards.md on run, out, FL and pc (Phase 1 table). -/

namespace Sys2Proof.Machine

/-- Run, out, FL and pc as the Phase 1 table, D4 and D5 give them. -/
def State.atStart (s : State) : Prop := s.run = .running ∧ s.out = [] ∧ s.fl = 0x00 ∧ s.pc = 0

theorem State.atStart_reset : State.reset.atStart := ⟨rfl, rfl, rfl, rfl⟩

theorem State.atStart.withMem {s : State} (h : s.atStart) (m : Memory) : { s with mem := m }.atStart := h

theorem State.atStart.setReg {s : State} (h : s.atStart) (r : Fin 8) (v : Byte) : (s.setReg r v).atStart := h

/-- Settles O2: a load writes memory and EM alone, so run, out, FL and pc stay as at reset; the length check is the only
one it makes. -/
theorem loadedRunStateFlagsAndPc : Obligations.LoadedRunStateFlagsAndPc := by
  refine ⟨State.atStart_reset, fun image t h => ?_, fun image => ⟨?_, ?_⟩⟩
  · obtain ⟨-, rfl⟩ := load_eq_ok h
    exact (State.atStart_reset.withMem _).setReg _ _
  · rintro ⟨t, h⟩
    exact (load_eq_ok h).1
  · exact fun hle => ⟨_, load_of_le hle⟩

end Sys2Proof.Machine
end
